-- ==== Sys2Proof/Word.lean ====
section
/-! DEFINITION. The bit-vector types of the block: nibble, byte and 16-bit word (00_scope.md R4). -/

namespace Sys2Proof

/-- Four bits, the unit the CRC unit absorbs (00_scope.md R4). -/
abbrev Nibble := BitVec 4

/-- Eight bits (00_scope.md R4). -/
abbrev Byte := BitVec 8

/-- Sixteen bits: `crc`, PIN and every two-byte field of a frame. -/
abbrev Word := BitVec 16

end Sys2Proof
end

