-- ==== Sys2Proof/Config.lean ====
section
/-! DEFINITION. What an instance of the block fixes: its two open capacities and the constants of 00_scope.md section 4
that the source and 92_eei_decisions.md give. Nothing here is a free value: the spec leaves none. -/

namespace Sys2Proof

/-- The open parameters of one instance (92_eei_decisions.md D4, "Open parameters"). DESIGN CHOICE (log 4): they stand
in State, so a statement over every state is a statement over every instance. -/
structure Config where
  /-- IBUF_CAP: IBUF has the byte addresses 0 to IBUF_CAP-1. -/
  ibufCap : Nat
  /-- OBUF_CAP: OBUF has the byte addresses 0 to OBUF_CAP-1. -/
  obufCap : Nat
deriving DecidableEq, Repr

/-- The default parameters: 65535 bytes each (92_eei_decisions.md D4). -/
def Config.default : Config := { ibufCap := 65535, obufCap := 65535 }

/-- The constraint the spec puts on the parameters, `OBUF_CAP >= IBUF_CAP - 9` (20_memory.md R33, conflict C8). -/
def Config.ok (c : Config) : Bool := decide (c.ibufCap ≤ c.obufCap + 9)

/-- ENT_CAP, the number of entries of ENT (10_state.md R16). -/
def Config.entCap : Nat := 255

/-- The number of value bytes of one entry, VAL[0..254] (10_state.md R16). -/
def Config.valCap : Nat := 255

/-- The longest frame the 16-bit length field can describe (00_scope.md section 4, MAX_FRAME). -/
def Config.maxFrame : Nat := 65535

/-- CRC_INIT (40_crc.md R82). -/
def Config.crcInit : Word := 0xFFFF

/-- The table `T` as 10_state.md R11 lists it. PRESUMED (log 5): the spec supplies the entries from general knowledge
and confirms them against the source's four frames; unsafe if they are wrong. -/
def Config.nibbleTable : Vector Word 16 :=
  #v[0x0000, 0x1021, 0x2042, 0x3063, 0x4084, 0x50A5, 0x60C6, 0x70E7,
     0x8108, 0x9129, 0xA14A, 0xB16B, 0xC18C, 0xD1AD, 0xE1CE, 0xF1EF]

end Sys2Proof
end

