-- ==== Sys2Proof/Machine/Bytes.lean ====
section
/-! DEFINITION. Byte order and bit fields: low and high byte, little-endian assembly, nibbles (00_scope.md R5, 20_memory.md R31,
30_encoding.md R57, R59). The one place where the byte order is decided. -/

namespace Sys2Proof.Machine

/-- `lo8(v) = v & 0xFF` (00_scope.md R5). -/
def lo8 (v : Word) : Byte := v.setWidth 8

/-- `hi8(v) = (v >> 8) & 0xFF` (00_scope.md R5). -/
def hi8 (v : Word) : Byte := (v >>> 8).setWidth 8

/-- A 16-bit value as two bytes, low byte first (30_encoding.md R57). -/
def le16 (v : Word) : List Byte := [lo8 v, hi8 v]

/-- The 16-bit value of two bytes, low byte first: `lo | (hi << 8)` (20_memory.md R33, 30_encoding.md R57). -/
def join16 (lo hi : Byte) : Word := lo.setWidth 16 ||| (hi.setWidth 16 <<< 8)

/-- `rd16(x, i)`: the 16-bit value at offset `i` of a byte sequence, absent outside it (00_scope.md R5). -/
def rd16 (x : List Byte) (i : Nat) : Option Word :=
  match x[i]?, x[i + 1]? with
  | some lo, some hi => some (join16 lo hi)
  | _, _ => none

/-- The high nibble `b >> 4` (30_encoding.md R59). -/
def hiNibble (b : Byte) : Nibble := (b >>> 4).setWidth 4

/-- The low nibble `b & 0xF` (30_encoding.md R59). -/
def loNibble (b : Byte) : Nibble := b.setWidth 4

end Sys2Proof.Machine
end

