-- ==== Sys2Proof/Machine/Checksum.lean ====
section
/-! DEFINITION. The checksum algorithm as functions: the nibble step CRC.NIB, the byte step and `crc16`
(40_crc.md R80, R81, R83, R84, R85). -/

namespace Sys2Proof.Machine

/-- `T[idx]`; the index is four bits, so it always selects an entry (30_encoding.md R59, 10_state.md R11). -/
def tableAt (idx : Nibble) : Word := Config.nibbleTable[idx.toNat]'idx.isLt

/-- The index of a nibble step: the top nibble of the register as it is BEFORE the shift, xor the input nibble
(40_crc.md R80, 92_eei_decisions.md D22). -/
def nibIndex (c : Word) (n : Nibble) : Nibble := (c >>> 12).setWidth 4 ^^^ n

/-- CRC.NIB: `nib(c, n) = ((c << 4) & 0xFFFF) XOR T[(c >> 12) XOR n]` (40_crc.md R80). -/
def nib (c : Word) (n : Nibble) : Word := (c <<< 4) ^^^ tableAt (nibIndex c n)

/-- `byte(c, b)`: the high nibble first, then the low nibble (40_crc.md R81). -/
def crcByteStep (c : Word) (b : Byte) : Word := nib (nib c (hiNibble b)) (loNibble b)

/-- `crc16(m)`: the byte steps of `m` in ascending order from 0xFFFF, with no final step (40_crc.md R83, R85). -/
def crc16 (m : List Byte) : Word := m.foldl crcByteStep Config.crcInit

end Sys2Proof.Machine
end

