-- ==== Sys2Proof/Syntax.lean ====
section
/-! DEFINITION. The instructions of the block, one constructor per row of spec/opcode_table.json, the entry record of a
write request, and the two encoded forms an instruction has (30_encoding.md R50 to R54, R60). -/

namespace Sys2Proof

/-- A DcbEntry, position and length and value bytes (30_encoding.md R52). `length` and `value` are kept apart, as in the
spec's record, so that an entry whose length disagrees with its value can be presented (41_frame_encoder.md R93 (c)). -/
structure DcbEntry where
  position : Word
  length   : Byte
  value    : List Byte
deriving DecidableEq, Repr

/-- One constructor per row of the opcode table. The seven rows of format CMD take their operands from registers and
buffers (30_encoding.md R60), so they carry none. The three rows of format FRAME are wire frames and carry the fields of
their layouts (R51, R53, R54); the length and checksum fields are carried as found, right or wrong. DEDUCED (log 6): a
wire frame is an instruction in the sense of the line `DEC.PARSE frame=…` of R64. -/
inductive Instr where
  /-- CRC.INIT, command word 0x00 (40_crc.md R82). -/
  | crcInit
  /-- CRC.BYTE, command word 0x01 (40_crc.md R81). -/
  | crcByte
  /-- CRC.SUM, command word 0x02 (40_crc.md R83). -/
  | crcSum
  /-- ENC.FRAME, command word 0x04 (41_frame_encoder.md R90). -/
  | encFrame
  /-- ENC.READ, command word 0x05 (41_frame_encoder.md R91). -/
  | encRead
  /-- ENC.WRITE, command word 0x06 (41_frame_encoder.md R92). -/
  | encWrite
  /-- DEC.PARSE, command word 0x07 (42_frame_decoder.md R100). -/
  | decParse
  /-- READ_REQ, byte 0 = 0x93 (30_encoding.md R53): length field, pin, payload, checksum field. -/
  | readReq (len pin : Word) (payload : List Byte) (sum : Word)
  /-- WRITE_REQ, byte 0 = 0xA3 (30_encoding.md R51): length field, pin, the entries (their number is the itemCount byte),
  checksum field. -/
  | writeReq (len pin : Word) (entries : List DcbEntry) (sum : Word)
  /-- READ_RSP, byte 0 = 0x94 (30_encoding.md R54): length field, startAddr, byteCount, DCB slice, checksum field. -/
  | readRsp (len start count : Word) (dcb : List Byte) (sum : Word)
deriving DecidableEq, Repr

/-- What the host hands over to start an operation: a command word written to CMD (30_encoding.md R60), or the bytes of a
received frame, lowest offset first (20_memory.md R36). -/
inductive Image where
  | command (word : Byte)
  | wire (bytes : List Byte)
deriving DecidableEq, Repr

/-- A line of the spec's notation, a mnemonic with its `name=value` operands (30_encoding.md R64). -/
inductive CommandLine where
  | crcInit
  | crcByte (data : Byte)
  | crcSum (msg : List Byte)
  | encFrame (op : Byte) (pin : Word) (payload : List Byte)
  | encRead (pin : Word)
  | encWrite (pin : Word) (entries : List DcbEntry)
  | decParse (frame : List Byte)
deriving DecidableEq, Repr

/-- Why bytes are no instruction, by name. -/
inductive DecodeError where
  /-- A command word that is reserved or has a bit of 7 to 3 set (30_encoding.md R61). -/
  | undefinedCommand (word : Byte)
  /-- A frame of no bytes (42_frame_decoder.md R102 (a)). -/
  | emptyFrame
  /-- A frame whose first byte no FRAME row has (30_encoding.md R63). -/
  | unknownFrameCode (code : Byte)
  /-- A frame that starts like a READ_REQ and has not its 11 bytes (30_encoding.md R53). -/
  | notReadReqSize
  /-- A frame that starts like a WRITE_REQ and whose bytes do not divide into header, entries and checksum (R51). -/
  | badEntryLayout
  /-- A frame that starts like a READ_RSP and has fewer than 9 bytes (R54, 42_frame_decoder.md R102). -/
  | shortResponse
deriving DecidableEq, Repr

end Sys2Proof
end

