-- ==== Sys2Proof/Machine/Frame.lean ====
section
/-! DEFINITION. The wire formats: codes, the command frame, serialised entries, the covered bytes and checksum of a wire
frame (30_encoding.md R50 to R58). -/

namespace Sys2Proof.Machine

/-- OPC_READ (30_encoding.md R55). -/
def opcRead : Byte := 0x93

/-- OPC_WRITE (30_encoding.md R55). -/
def opcWrite : Byte := 0xA3

/-- RSP_READ_ACK, the only response code the decoder accepts (30_encoding.md R55). -/
def rspReadAck : Byte := 0x94

/-- The fixed payload of the read request (30_encoding.md R53). -/
def readPayload : List Byte := [0x00, 0x00, 0xFF, 0xFF]

/-- `totalLength = 5 + n + 2` for a payload of `n` bytes, on unbounded naturals (30_encoding.md R56). -/
def totalLength (n : Nat) : Nat := 5 + n + 2

/-- The bytes a command frame's checksum covers: code, length, pin, payload (41_frame_encoder.md R90). -/
def frameBody (op : Byte) (pin : Word) (p : List Byte) : List Byte :=
  [op] ++ le16 (BitVec.ofNat 16 (totalLength p.length)) ++ le16 pin ++ p

/-- `frame(op, pin, p)`: the body, then the checksum over every byte of it, low byte first (41_frame_encoder.md R90). -/
def frame (op : Byte) (pin : Word) (p : List Byte) : List Byte :=
  frameBody op pin p ++ le16 (crc16 (frameBody op pin p))

/-- `e(x)`: position low byte first, the length byte, the value bytes (30_encoding.md R52). -/
def serEntry (e : DcbEntry) : List Byte := le16 e.position ++ [e.length] ++ e.value

/-- The serialised entries in list order (30_encoding.md R51). -/
def serEntries : List DcbEntry → List Byte
  | [] => []
  | e :: es => serEntry e ++ serEntries es

/-- `ser(E) = [k] ++ e(E_0) ++ …`, the payload of a write request (41_frame_encoder.md R92). -/
def serPayload (es : List DcbEntry) : List Byte := BitVec.ofNat 8 es.length :: serEntries es

/-- `n = 1 + sum over j of (3 + LEN_j)`, the payload length of a write request (41_frame_encoder.md R92). -/
def serLength (es : List DcbEntry) : Nat := 1 + (es.map fun e => 3 + e.length.toNat).sum

/-- An entry whose LEN is the number of its value bytes (41_frame_encoder.md R93 (c)). -/
def entryOk (e : DcbEntry) : Bool := e.value.length == e.length.toNat

/-- The bytes of an instruction's wire frame that its checksum field covers (30_encoding.md R58), from the layouts of R51, R53, R54;
none for a command word. -/
def coveredBytes : Instr → List Byte
  | .readReq len pin payload _ => [opcRead] ++ le16 len ++ le16 pin ++ payload
  | .writeReq len pin es _ => [opcWrite] ++ le16 len ++ le16 pin ++ serPayload es
  | .readRsp len start count dcb _ => [rspReadAck] ++ le16 len ++ le16 start ++ le16 count ++ dcb
  | .crcInit | .crcByte | .crcSum | .encFrame | .encRead | .encWrite | .decParse => []

end Sys2Proof.Machine
end

