-- ==== Sys2Proof/Machine/State.lean ====
section
/-! DEFINITION. The state of one instance of the block with its host, as plain data, the reasons a step can stop, and the
state after reset (10_state.md, 20_memory.md R30, 70_reset_and_hazards.md R130, R133). -/

namespace Sys2Proof.Machine

/-- A buffer as (address, value) pairs, addresses strictly rising. An unlisted address holds no value (10_state.md R20): nothing
has written it, and reading it is never a number. -/
abbrev Memory (α : Type) := List (Nat × α)

/-- The three address spaces of the block (20_memory.md R30). -/
inductive Buffer where
  | ibuf | obuf | ent
deriving DecidableEq, Repr

/-- The interface registers of 10_state.md Table 10-1, in the order of their numbers 0 to 12. -/
inductive HostReg where
  | cmd | status | data | op | pin | ilen | ecnt | crc | olen | rCode | rLen | rStart | rCount
deriving DecidableEq, Repr

/-- The failure kinds of the block, the source's three and the spec's four (60_exceptions.md R110, R119). A failure is a STATUS
value after which the machine goes on, never a stop. -/
inductive Failure where
  | invalidResponseCode | lengthMismatch | checksumMismatch
  | frameTooLong | tooManyEntries | badEntry | illegalCommand
deriving DecidableEq, Repr

/-- Why the machine stops with a fault: the host asked for something the spec says does not exist or has no number. -/
inductive Fault where
  /-- A write to an address outside a buffer: by the host (log 11), by a frame longer than IBUF_CAP (log 11), or by a slice
  longer than OBUF_CAP, which the constraint on the parameters excludes (20_memory.md R33, log 20). Safe. -/
  | noSuchAddress (b : Buffer)
  /-- The host wrote an ILEN above IBUF_CAP, outside the range of 10_state.md Table 10-1 (log 11). Safe. -/
  | lengthOutOfRange
  /-- The host read an R_ register that holds no value (10_state.md R15, 93_implementation_defined.md U5). Safe. -/
  | noValue (r : HostReg)
  /-- The host read OBUF at or beyond OLEN (93_implementation_defined.md U5). Safe. -/
  | noValidByte (address : Nat)
  /-- The host read the write-only register CMD (10_state.md Table 10-1). Safe. -/
  | writeOnly (r : HostReg)
deriving DecidableEq, Repr

/-- Why a request has no meaning. -/
inductive Refusal where
  /-- An arm of `exec` whose instruction has no meaning yet: raised by none. Safe. -/
  | notModelled (mnemonic : String)
  /-- A command was made to read a buffer element nobody has written, a host error the model refuses (10_state.md R20,
  93_implementation_defined.md U4): raised by CRC.SUM, ENC.FRAME, ENC.WRITE and DEC.PARSE. Safe. -/
  | unwrittenOperand (b : Buffer)
deriving DecidableEq, Repr

/-- What the host can do to the block (70_reset_and_hazards.md Table 70-1, 10_state.md Table 10-1, R16). Writes to STATUS, CRC,
OLEN, the R_ registers and OBUF do not exist. DESIGN CHOICE (log 1). -/
inductive HostAction where
  | writeData (b : Byte)
  | writeOp (b : Byte)
  | writePin (w : Word)
  | writeIlen (n : Nat)
  | writeEcnt (b : Byte)
  /-- One byte of IBUF. -/
  | writeIbuf (address : Nat) (b : Byte)
  /-- POS of one entry of ENT. -/
  | writeEntPos (entry : Nat) (w : Word)
  /-- LEN of one entry of ENT. -/
  | writeEntLen (entry : Nat) (b : Byte)
  /-- One byte VAL[i] of one entry of ENT. -/
  | writeEntVal (entry i : Nat) (b : Byte)
  /-- A command word written to CMD (30_encoding.md R60), or a received frame given to the decoder by the line
  `DEC.PARSE frame=…` (R64). -/
  | issue (image : Image)
  | readReg (r : HostReg)
  | readObuf (address : Nat)
  /-- The reset event, between commands (70_reset_and_hazards.md R130). -/
  | reset
deriving DecidableEq, Repr

/-- What the four R_ registers hold when they hold values (10_state.md R15, registers 9 to 12). -/
structure RespHeader where
  code  : Byte
  len   : Word
  start : Word
  count : Word
deriving DecidableEq, Repr

/-- The state. Every field but `todo` and `seen` is the spec's. -/
structure State where
  /-- The instance's open parameters, changed by no step (92_eei_decisions.md D4; log 4). -/
  cfg : Config
  /-- Register 7, CRC (10_state.md R10). -/
  crc : Word
  /-- Register 0, CMD: the last command word the host wrote (10_state.md R13; log 18). -/
  cmd : Byte
  /-- Register 1, STATUS (10_state.md R14). -/
  status : Byte
  /-- Register 2, DATA. -/
  data : Byte
  /-- Register 3, OP. -/
  op : Byte
  /-- Register 4, PIN. -/
  pin : Word
  /-- Register 5, ILEN, the number of valid bytes of IBUF (log 15). -/
  ilen : Nat
  /-- Register 6, ECNT, the number of valid entries of ENT. -/
  ecnt : Byte
  /-- IBUF (10_state.md R16). -/
  ibuf : List Host.Cell
  /-- The POS fields of ENT, by entry index (10_state.md R16). -/
  entPos : List (Nat × Word)
  /-- The LEN fields of ENT, by entry index. -/
  entLen : List (Nat × Byte)
  /-- The VAL bytes of ENT; VAL[i] of entry j stands at 255 * j + i. -/
  entVal : List Host.Cell
  /-- OBUF (10_state.md R16); bytes at or beyond OLEN are not valid output (log 13). -/
  obuf : List Host.Cell
  /-- Register 8, OLEN, the number of valid bytes of OBUF (log 15). -/
  olen : Nat
  /-- Registers 9 to 12, R_CODE, R_LEN, R_START, R_COUNT, or no value (10_state.md R15; log 14). -/
  parsed : Option RespHeader
  /-- The model's own: what the host does next, first action first (log 1). -/
  todo : List HostAction
  /-- The model's own: the values the host has read, newest first (log 3). -/
  seen : List Nat
deriving DecidableEq, Repr

/-- The state of 10_state.md Table 10-3, for the instance with the default parameters. The spec gives every value but those of
`todo` and `seen` (log 1, log 3). -/
def State.reset : State where
  cfg := Config.default
  crc := 0xFFFF
  cmd := 0x00
  status := 0x00
  data := 0x00
  op := 0x00
  pin := 0x0000
  ilen := 0
  ecnt := 0
  ibuf := []
  entPos := []
  entLen := []
  entVal := []
  obuf := []
  olen := 0
  parsed := none
  todo := []
  seen := []

/-- One step's outcome. -/
abbrev Result := Host.Outcome State Fault Refusal

end Sys2Proof.Machine
end

