-- ==== Sys2Proof/Machine/Flags.lean ====
section
/-! DEFINITION. STATUS, the block's only status or flag register: its codes (10_state.md R14, Table 10-2). There are no condition
codes, carry, zero or overflow flags and no sticky bits. -/

namespace Sys2Proof.Machine

/-- The code of OK (10_state.md Table 10-2). -/
def statusOk : Byte := 0x00

/-- The STATUS code of a failure kind (10_state.md Table 10-2). -/
def failureCode : Failure → Byte
  | .invalidResponseCode => 0x01
  | .lengthMismatch => 0x02
  | .checksumMismatch => 0x03
  | .frameTooLong => 0x10
  | .tooManyEntries => 0x11
  | .badEntry => 0x12
  | .illegalCommand => 0x1F

/-- "every other value of STATUS is never produced" (10_state.md R14): the legal values. -/
def statusLegal (v : Byte) : Bool :=
  v == 0x00 || v == 0x01 || v == 0x02 || v == 0x03 || v == 0x10 || v == 0x11 || v == 0x12 || v == 0x1F

end Sys2Proof.Machine
end

