-- ==== Sys2Proof/Machine/Ops.lean ====
section
/-! DEFINITION. The named operations over buffers and registers: the canonical memory, the memory primitives of 20_memory.md R33,
how a command ends well, and a failure's entry (60_exceptions.md R113) as ONE operation. -/

namespace Sys2Proof.Machine

/-- The canonical form: addresses strictly rising. -/
def Memory.wf {α : Type} : Memory α → Bool
  | [] => true
  | [_] => true
  | (a, _) :: (b, w) :: m => decide (a < b) && Memory.wf ((b, w) :: m)

/-- The value at an address, absent where nothing has written it (10_state.md R20). -/
def Memory.get {α : Type} : Memory α → Nat → Option α
  | [], _ => none
  | (k, v) :: m, a => if k = a then some v else Memory.get m a

/-- Write one element, keeping the canonical form. -/
def Memory.set {α : Type} : Memory α → Nat → α → Memory α
  | [], a, v => [(a, v)]
  | (k, w) :: m, a, v =>
    if a < k then (a, v) :: (k, w) :: m
    else if a = k then (a, v) :: m
    else (k, w) :: Memory.set m a v

/-- Write consecutive elements from an address upwards. -/
def Memory.setAll {α : Type} (m : Memory α) (a : Nat) : List α → Memory α
  | [] => m
  | v :: vs => Memory.setAll (Memory.set m a v) (a + 1) vs

/-- `n` consecutive elements from an address upwards, absent if any of them holds no value. -/
def Memory.getAll {α : Type} (m : Memory α) (a : Nat) : Nat → Option (List α)
  | 0 => some []
  | n + 1 =>
    match Memory.get m a, Memory.getAll m (a + 1) n with
    | some v, some vs => some (v :: vs)
    | _, _ => none

/-- `MemRead(S, a, 2) = S[a] | (S[a+1] << 8)`, two independent byte accesses (20_memory.md R33, R34). -/
def Memory.get16 (m : Memory Byte) (a : Nat) : Option Word :=
  match Memory.get m a, Memory.get m (a + 1) with
  | some lo, some hi => some (join16 lo hi)
  | _, _ => none

/-- Which part of the block a failure comes from: this decides what its entry clears (60_exceptions.md R113). -/
inductive Raiser where
  /-- The command port: IllegalCommand. -/
  | port
  /-- ENC.FRAME, ENC.READ, ENC.WRITE. -/
  | encoder
  /-- DEC.PARSE. -/
  | decoder
deriving DecidableEq, Repr

/-- `fail Kind`, the entry of a failure: STATUS takes the code, a codec failure clears OLEN, a DEC.PARSE failure also takes the
values of the R_ registers away, and nothing else is written (60_exceptions.md R113). There is no return from a failure: the next
command just runs (R115). -/
def State.fail (r : Raiser) (k : Failure) (s : State) : State :=
  match r with
  | .port => { s with status := failureCode k }
  | .encoder => { s with status := failureCode k, olen := 0 }
  | .decoder => { s with status := failureCode k, olen := 0, parsed := none }

/-- A CRC command ends: `crc` and STATUS (40_crc.md R81, R82, R83). -/
def State.putCrc (c : Word) (s : State) : State := { s with crc := c, status := statusOk }

/-- An encoder command ends well: the frame stands in OBUF from address 0, OLEN is its length (41_frame_encoder.md R90). -/
def State.putFrame (f : List Byte) (s : State) : State :=
  { s with obuf := Memory.setAll s.obuf 0 f, olen := f.length, status := statusOk }

/-- DEC.PARSE ends well: the R_ registers, the slice in OBUF from address 0, OLEN, STATUS (42_frame_decoder.md R100). -/
def State.putResponse (h : RespHeader) (slice : List Byte) (s : State) : State :=
  { s with parsed := some h, obuf := Memory.setAll s.obuf 0 slice, olen := slice.length, status := statusOk }

/-- The host's write of a command word reaches CMD (10_state.md Table 10-1). -/
def State.latch (w : Byte) (s : State) : State := { s with cmd := w }

/-- The host's writes of the line `DEC.PARSE frame=…`: IBUF from address 0, ILEN, then 0x07 to CMD (30_encoding.md R64). -/
def State.loadFrame (f : List Byte) (s : State) : State :=
  { s with ibuf := Memory.setAll s.ibuf 0 f, ilen := f.length, cmd := 0x07 }

/-- The reset event on this instance: Table 10-3 (70_reset_and_hazards.md R130). The instance keeps its parameters, and the host
keeps what it has still to do and what it has read (log 17). -/
def State.resetBlock (s : State) : State :=
  { State.reset with cfg := s.cfg, todo := s.todo, seen := s.seen }

/-- The action list moves on by one. -/
def State.withTodo (rest : List HostAction) (s : State) : State := { s with todo := rest }

/-- The host has read a number. -/
def State.observe (v : Nat) (s : State) : State := { s with seen := v :: s.seen }

end Sys2Proof.Machine
end

