-- ==== Sys2Proof/Machine/Operands.lean ====
section
/-! DEFINITION. The operands of the commands: the message, payload or frame in IBUF, and the entry list in ENT
(20_memory.md R43, 30_encoding.md Table 30-5). An operand element nobody has written makes the operand absent (10_state.md R20). -/

namespace Sys2Proof.Machine

/-- `IBUF[0..ILEN-1]` (10_state.md R16). -/
def State.message (s : State) : Option (List Byte) := Memory.getAll s.ibuf 0 s.ilen

/-- Where VAL[i] of entry j stands in `entVal`. -/
def entValKey (j i : Nat) : Nat := Config.valCap * j + i

/-- Entry j of ENT: POS, LEN and VAL[0..LEN-1] (10_state.md R16). -/
def State.entry (s : State) (j : Nat) : Option DcbEntry :=
  match Memory.get s.entPos j, Memory.get s.entLen j with
  | some pos, some len =>
    match Memory.getAll s.entVal (entValKey j 0) len.toNat with
    | some val => some { position := pos, length := len, value := val }
    | none => none
  | _, _ => none

/-- `n` entries of ENT from entry j upwards. -/
def State.entriesFrom (s : State) (j : Nat) : Nat → Option (List DcbEntry)
  | 0 => some []
  | n + 1 =>
    match s.entry j, s.entriesFrom (j + 1) n with
    | some e, some es => some (e :: es)
    | _, _ => none

/-- `ENT[0..ECNT-1]` in list order (41_frame_encoder.md R92). -/
def State.entries (s : State) : Option (List DcbEntry) := s.entriesFrom 0 s.ecnt.toNat

/-- A frame with a payload of `n` bytes fits the length field and OBUF (41_frame_encoder.md R93 (a)). -/
def frameFits (c : Config) (n : Nat) : Bool :=
  decide (totalLength n ≤ Config.maxFrame) && decide (totalLength n ≤ c.obufCap)

end Sys2Proof.Machine
end

