-- ==== Sys2Proof/Machine/CrcUnit.lean ====
section
/-! DEFINITION. The CRC unit's commands: CRC.INIT, CRC.BYTE, CRC.SUM (40_crc.md R81, R82, R83). None of them has a failure
(60_exceptions.md R120). -/

namespace Sys2Proof.Machine

/-- CRC.INIT (40_crc.md R82). -/
def execCrcInit (s : State) : Result := .next (s.putCrc Config.crcInit)

/-- CRC.BYTE: the byte in DATA, on whatever `crc` holds (40_crc.md R81). -/
def execCrcByte (s : State) : Result := .next (s.putCrc (crcByteStep s.crc s.data))

/-- CRC.SUM: the checksum of IBUF[0..ILEN-1], whatever `crc` held (40_crc.md R83). -/
def execCrcSum (s : State) : Result :=
  match s.message with
  | some m => .next (s.putCrc (crc16 m))
  | none => .refused (.unwrittenOperand .ibuf)

end Sys2Proof.Machine
end

