-- ==== Sys2Proof/Machine/FrameEncoder.lean ====
section
/-! DEFINITION. The frame encoder's commands: ENC.FRAME, ENC.READ, ENC.WRITE (41_frame_encoder.md R90 to R93). -/

namespace Sys2Proof.Machine

/-- ENC.FRAME (41_frame_encoder.md R90): the length test comes before any byte of the payload is read. -/
def execEncFrame (s : State) : Result :=
  if frameFits s.cfg s.ilen then
    match s.message with
    | some p => .next (s.putFrame (frame s.op s.pin p))
    | none => .refused (.unwrittenOperand .ibuf)
  else .next (s.fail .encoder .frameTooLong)

/-- ENC.READ (41_frame_encoder.md R91): IBUF, ILEN and OP are not read. -/
def execEncRead (s : State) : Result :=
  if frameFits s.cfg readPayload.length then
    .next (s.putFrame (frame opcRead s.pin readPayload))
  else .next (s.fail .encoder .frameTooLong)

/-- The write request for an entry list, or the first failing check in the order TooManyEntries, BadEntry, FrameTooLong
(41_frame_encoder.md R92, R93). The operand is a list of records with list-valued values, for which R93 defines all three; a list
read from ENT passes the first two (log 16). -/
def buildWrite (c : Config) (pin : Word) (es : List DcbEntry) : Except Failure (List Byte) :=
  if 255 < es.length then .error .tooManyEntries
  else if es.all entryOk then
    if frameFits c (serLength es) then .ok (frame opcWrite pin (serPayload es))
    else .error .frameTooLong
  else .error .badEntry

/-- ENC.WRITE (41_frame_encoder.md R92): all checks come before anything is written. -/
def execEncWrite (s : State) : Result :=
  match s.entries with
  | some es =>
    match buildWrite s.cfg s.pin es with
    | .ok f => .next (s.putFrame f)
    | .error k => .next (s.fail .encoder k)
  | none => .refused (.unwrittenOperand .ent)

end Sys2Proof.Machine
end

