-- ==== Sys2Proof/WellFormed.lean ====
section
/-! DEFINITION. When an instruction's operands are those of a frame the spec calls well formed: the checks of the layouts
R51 to R54 and of the invariants R56 and R58, each under a name of its own. A command word carries no operand and is always well
formed (30_encoding.md R60). -/

namespace Sys2Proof

/-- The operands fit their layout: four payload bytes in a read request (R53), at most 255 entries and each LEN the size
of its value in a write request (R51, R52). This is what the encoding itself needs. -/
def Instr.encodable : Instr → Bool
  | .readReq _ _ payload _ => payload.length == 4
  | .writeReq _ _ es _ => decide (es.length ≤ 255) && es.all Machine.entryOk
  | .readRsp _ _ _ _ _ => true
  | .crcInit | .crcByte | .crcSum | .encFrame | .encRead | .encWrite | .decParse => true

/-- The length field is the frame's actual length, "totalLength equals the frame's actual byte length" (R56). -/
def Instr.lengthOk (i : Instr) : Bool :=
  match i with
  | .readReq len _ _ _ | .writeReq len _ _ _ | .readRsp len _ _ _ _ =>
    len.toNat == (Machine.coveredBytes i).length + 2
  | .crcInit | .crcByte | .crcSum | .encFrame | .encRead | .encWrite | .decParse => true

/-- The checksum field is `crc16` of every preceding byte (R58). -/
def Instr.checksumOk (i : Instr) : Bool :=
  match i with
  | .readReq _ _ _ sum | .writeReq _ _ _ sum | .readRsp _ _ _ _ sum =>
    sum == Machine.crc16 (Machine.coveredBytes i)
  | .crcInit | .crcByte | .crcSum | .encFrame | .encRead | .encWrite | .decParse => true

/-- The fields the layout fixes hold their values: the read request's payload (R53), and byteCount equal to the slice's
size in a well-formed response, which the decoder does not check (R54). -/
def Instr.fixedOk : Instr → Bool
  | .readReq _ _ payload _ => payload == Machine.readPayload
  | .readRsp _ _ count dcb _ => count.toNat == dcb.length
  | .writeReq _ _ _ _ => true
  | .crcInit | .crcByte | .crcSum | .encFrame | .encRead | .encWrite | .decParse => true

/-- A well-formed instruction passes all four checks. -/
def Instr.wellFormed (i : Instr) : Bool := i.encodable && i.lengthOk && i.checksumOk && i.fixedOk

end Sys2Proof
end

