-- ==== Sys2Proof/Decode.lean ====
section
/-! DEFINITION. Decoding of command words and of wire frames, total and rejecting by name, and after it the encoder
(30_encoding.md R50 to R54, R60, R61, R63, section 7). -/

namespace Sys2Proof

open Machine

/-- The command word of Table 30-5; the reserved word 0x03 and every word with a bit of 7 to 3 set are rejected
(30_encoding.md R60, R61). -/
def decodeCommand (w : Byte) : Except DecodeError Instr :=
  match w.toNat with
  | 0x00 => .ok .crcInit
  | 0x01 => .ok .crcByte
  | 0x02 => .ok .crcSum
  | 0x04 => .ok .encFrame
  | 0x05 => .ok .encRead
  | 0x06 => .ok .encWrite
  | 0x07 => .ok .decParse
  | _ => .error (.undefinedCommand w)

/-- The last two bytes of a sequence as a little-endian word, with what stands before them (30_encoding.md R58). -/
def splitTrailer (x : List Byte) : Option (List Byte × Word) :=
  match x.drop (x.length - 2) with
  | [lo, hi] => some (x.take (x.length - 2), join16 lo hi)
  | _ => none

/-- Exactly `k` serialised entries and nothing after them (30_encoding.md R51, R52). -/
def parseEntries : Nat → List Byte → Option (List DcbEntry)
  | 0, [] => some []
  | k + 1, p0 :: p1 :: l :: rest =>
    if l.toNat ≤ rest.length then
      (parseEntries k (rest.drop l.toNat)).map
        ({ position := join16 p0 p1, length := l, value := rest.take l.toNat } :: ·)
    else none
  | _, _ => none

/-- The bytes of a READ_REQ after byte 0: the layout of 30_encoding.md R53, field values as found. -/
def decodeReadReq : List Byte → Except DecodeError Instr
  | [l0, l1, p0, p1, d0, d1, d2, d3, s0, s1] =>
    .ok (.readReq (join16 l0 l1) (join16 p0 p1) [d0, d1, d2, d3] (join16 s0 s1))
  | _ => .error .notReadReqSize

/-- The bytes of a WRITE_REQ after byte 0: the layout of 30_encoding.md Table 30-2, field values as found. -/
def decodeWriteReq : List Byte → Except DecodeError Instr
  | l0 :: l1 :: p0 :: p1 :: k :: tail =>
    match splitTrailer tail with
    | some (body, sum) =>
      match parseEntries k.toNat body with
      | some es => .ok (.writeReq (join16 l0 l1) (join16 p0 p1) es sum)
      | none => .error .badEntryLayout
    | none => .error .badEntryLayout
  | _ => .error .badEntryLayout

/-- The bytes of a READ_RSP after byte 0: the layout of 30_encoding.md Table 30-4, field values as found. -/
def decodeReadRsp : List Byte → Except DecodeError Instr
  | l0 :: l1 :: a0 :: a1 :: c0 :: c1 :: tail =>
    match splitTrailer tail with
    | some (dcb, sum) => .ok (.readRsp (join16 l0 l1) (join16 a0 a1) (join16 c0 c1) dcb sum)
    | none => .error .shortResponse
  | _ => .error .shortResponse

/-- The classifier of wire frames by byte 0 (30_encoding.md section 7, R63). DESIGN CHOICE (log 7): a wrong length or
checksum field does not keep a frame from being decoded, since what follows from it is DEC.PARSE's to say. -/
def decodeFrame : List Byte → Except DecodeError Instr
  | [] => .error .emptyFrame
  | b :: rest =>
    if b = opcRead then decodeReadReq rest
    else if b = opcWrite then decodeWriteReq rest
    else if b = rspReadAck then decodeReadRsp rest
    else .error (.unknownFrameCode b)

/-- The instruction of an image. Command words and frames are two spaces: the word 0x93 written to CMD is undefined, the
frame byte 0x93 is READ_REQ (30_encoding.md R61, R63). -/
def decode : Image → Except DecodeError Instr
  | .command w => decodeCommand w
  | .wire bytes => decodeFrame bytes

/-- The image of an instruction, from Table 30-5 and the frame layouts; the round trip holds for encodable operands. -/
def encode (i : Instr) : Image :=
  match i with
  | .crcInit => .command 0x00
  | .crcByte => .command 0x01
  | .crcSum => .command 0x02
  | .encFrame => .command 0x04
  | .encRead => .command 0x05
  | .encWrite => .command 0x06
  | .decParse => .command 0x07
  | .readReq _ _ _ sum | .writeReq _ _ _ sum | .readRsp _ _ _ _ sum =>
    .wire (coveredBytes i ++ le16 sum)

/-- The bytes of an instruction's wire frame, in wire order (20_memory.md R36). -/
def wireBytes (i : Instr) : List Byte :=
  match encode i with
  | .wire bytes => bytes
  | .command _ => []

/-- The size of the shortest frame of a FRAME row, by its byte 0: 11, 8 and 9 bytes (30_encoding.md R53, 41_frame_encoder.md R92,
30_encoding.md R54). Absent for a byte that is no FRAME row's. -/
def shortestFrame (b : Byte) : Option Nat :=
  if b = opcRead then some 11
  else if b = opcWrite then some 8
  else if b = rspReadAck then some 9
  else none

/-- The bytes of a number, least significant byte first. -/
def bytesOfNat : Nat → Nat → List Byte
  | 0, _ => []
  | k + 1, w => BitVec.ofNat 8 w :: bytesOfNat k (w / 256)

/-- The image an opcode-table word of `nbits` bits stands for: a frame where byte 0 is a FRAME row's, its bytes above `nbits` zero
up to the row's shortest frame, else a command word, the number's low byte. DESIGN CHOICE (log 8). -/
def tableImage (nbits w : Nat) : Image :=
  let bytes := bytesOfNat ((nbits + 7) / 8) w
  match bytes with
  | [] => .command (BitVec.ofNat 8 w)
  | b :: _ =>
    match shortestFrame b with
    | some size => .wire (bytes ++ List.replicate (size - bytes.length) 0)
    | none => .command b

/-- What the decoder reads from an opcode-table word (see `tableImage`); a command word is one byte, so longer command
rows do not exist. -/
def decodeTableWord (nbits w : Nat) : Option Instr :=
  match decode (tableImage nbits w) with
  | .ok i => some i
  | .error _ => none

end Sys2Proof
end

