-- ==== Sys2Proof/Machine/FrameDecoder.lean ====
section
/-! DEFINITION. The frame decoder: the three checks in order and DEC.PARSE (42_frame_decoder.md R100 to R103). -/

namespace Sys2Proof.Machine

/-- What DEC.PARSE reads IBUF to: a failure kind, or the header fields and the slice. -/
abbrev Verdict := Except Failure (RespHeader × List Byte)

/-- Step 4 of DEC.PARSE: the header fields and the DCB slice `f[7..n-3]` (42_frame_decoder.md R100, R103); byteCount is reported
as received and compared with nothing. -/
def readResponse (m : Memory Byte) (n : Nat) (code : Byte) (len : Word) : Option Verdict :=
  match Memory.get16 m 3, Memory.get16 m 5, Memory.getAll m 7 (n - 9) with
  | some start, some count, some slice =>
    some (.ok ({ code := code, len := len, start := start, count := count }, slice))
  | _, _, _ => none

/-- Step 3 of DEC.PARSE: the transmitted checksum against `crc16` of every preceding byte (42_frame_decoder.md R100). -/
def checkSum (m : Memory Byte) (n : Nat) (code : Byte) (len : Word) : Option Verdict :=
  match Memory.get16 m (n - 2), Memory.getAll m 0 (n - 2) with
  | some sent, some covered =>
    if crc16 covered = sent then readResponse m n code len
    else some (.error .checksumMismatch)
  | _, _ => none

/-- Step 2 of DEC.PARSE: the declared length against the received length, and the short frames of R102 (b) and (c). -/
def checkLength (m : Memory Byte) (n : Nat) (code : Byte) : Option Verdict :=
  if n < 3 then some (.error .lengthMismatch)
  else
    match Memory.get16 m 1 with
    | some len =>
      if len.toNat = n then
        if n < 9 then some (.error .lengthMismatch) else checkSum m n code len
      else some (.error .lengthMismatch)
    | none => none

/-- The checks of DEC.PARSE on the frame IBUF[0..n-1], from step 1, the response code; the first that fails ends it
(42_frame_decoder.md R100, 60_exceptions.md R112). Absent if a byte it reads has no value (10_state.md R20); bytes are read as the
rule's pseudocode reads them, so a byte after the failing check need not have one (log 10). -/
def parseBuffer (m : Memory Byte) (n : Nat) : Option Verdict :=
  if n < 1 then some (.error .invalidResponseCode)
  else
    match Memory.get m 0 with
    | some code =>
      if code = rspReadAck then checkLength m n code
      else some (.error .invalidResponseCode)
    | none => none

/-- What a verdict does to the state (42_frame_decoder.md R100, R101). A slice that OBUF cannot hold would be a write to an address
that does not exist; the constraint on the parameters excludes it (20_memory.md R33, log 20). -/
def deliver (v : Option Verdict) (s : State) : Result :=
  match v with
  | some (.ok (h, slice)) =>
    if slice.length ≤ s.cfg.obufCap then .next (s.putResponse h slice)
    else .fault (.noSuchAddress .obuf)
  | some (.error k) => .next (s.fail .decoder k)
  | none => .refused (.unwrittenOperand .ibuf)

/-- DEC.PARSE (42_frame_decoder.md R100). -/
def execDecParse (s : State) : Result := deliver (parseBuffer s.ibuf s.ilen) s

end Sys2Proof.Machine
end

