-- ==== Sys2Proof/Machine/WireFrames.lean ====
section
/-! DEFINITION. The three wire frames of the opcode table as instructions: a received frame given to the decoder by the line
`DEC.PARSE frame=…` (30_encoding.md R63, R64, section 7; DEDUCED, log 6). -/

namespace Sys2Proof.Machine

/-- The line `DEC.PARSE frame=f`: the host loads IBUF, ILEN and CMD, and the command runs (30_encoding.md R64). Bytes beyond
IBUF_CAP have no address (20_memory.md R30, log 11). -/
def parseReceived (f : List Byte) (s : State) : Result :=
  if f.length ≤ s.cfg.ibufCap then
    deliver (parseBuffer (s.loadFrame f).ibuf (s.loadFrame f).ilen) (s.loadFrame f)
  else .fault (.noSuchAddress .ibuf)

/-- READ_REQ: the decoder rejects the block's own read request (30_encoding.md R53, R63). -/
def execReadReq (len pin : Word) (payload : List Byte) (sum : Word) (s : State) : Result :=
  parseReceived (wireBytes (.readReq len pin payload sum)) s

/-- WRITE_REQ: the decoder rejects the block's own write request (30_encoding.md R51, R63). -/
def execWriteReq (len pin : Word) (entries : List DcbEntry) (sum : Word) (s : State) : Result :=
  parseReceived (wireBytes (.writeReq len pin entries sum)) s

/-- READ_RSP: the only frame the decoder accepts (30_encoding.md R54, 42_frame_decoder.md R100). -/
def execReadRsp (len start count : Word) (dcb : List Byte) (sum : Word) (s : State) : Result :=
  parseReceived (wireBytes (.readRsp len start count dcb sum)) s

end Sys2Proof.Machine
end

