-- ==== Sys2Proof/Machine/Dispatch.lean ====
section
/-! DEFINITION. The meaning of every instruction, one arm per constructor. -/

namespace Sys2Proof.Machine

def exec (i : Instr) (s : State) : Host.Outcome State Fault Refusal :=
  match i with
  | .crcInit => Sys2Proof.Machine.execCrcInit s
  | .crcByte => Sys2Proof.Machine.execCrcByte s
  | .crcSum => Sys2Proof.Machine.execCrcSum s
  | .encFrame => Sys2Proof.Machine.execEncFrame s
  | .encRead => Sys2Proof.Machine.execEncRead s
  | .encWrite => Sys2Proof.Machine.execEncWrite s
  | .decParse => Sys2Proof.Machine.execDecParse s
  | .readReq len pin payload sum => Sys2Proof.Machine.execReadReq len pin payload sum s
  | .writeReq len pin entries sum => Sys2Proof.Machine.execWriteReq len pin entries sum s
  | .readRsp len start count dcb sum => Sys2Proof.Machine.execReadRsp len start count dcb sum s

end Sys2Proof.Machine
end

