-- ==== Sys2Proof/Machine/HostPort.lean ====
section
/-! DEFINITION. The block's side of every host interaction: register and buffer writes, reads, the command port, reset
(70_reset_and_hazards.md Table 70-1, 10_state.md Table 10-1, R15, R16, 30_encoding.md R60, R61). -/

namespace Sys2Proof.Machine

/-- A value of an R_ register, or the fault of reading one that holds none (10_state.md R15, 93_implementation_defined.md U5). -/
def readParsed (s : State) (r : HostReg) (field : RespHeader → Nat) : Except Fault Nat :=
  match s.parsed with
  | some h => .ok (field h)
  | none => .error (.noValue r)

/-- A host read of an interface register (10_state.md Table 10-1). -/
def readRegister (s : State) (r : HostReg) : Except Fault Nat :=
  match r with
  | .cmd => .error (.writeOnly .cmd)
  | .status => .ok s.status.toNat
  | .data => .ok s.data.toNat
  | .op => .ok s.op.toNat
  | .pin => .ok s.pin.toNat
  | .ilen => .ok s.ilen
  | .ecnt => .ok s.ecnt.toNat
  | .crc => .ok s.crc.toNat
  | .olen => .ok s.olen
  | .rCode => readParsed s r fun h => h.code.toNat
  | .rLen => readParsed s r fun h => h.len.toNat
  | .rStart => readParsed s r fun h => h.start.toNat
  | .rCount => readParsed s r fun h => h.count.toNat

/-- A host read of OBUF[a]: only bytes below OLEN are valid (10_state.md R16, 93_implementation_defined.md U5). -/
def readOutput (s : State) (a : Nat) : Except Fault Nat :=
  if a < s.olen then
    match Memory.get s.obuf a with
    | some b => .ok b.toNat
    | none => .error (.noValidByte a)
  else .error (.noValidByte a)

/-- A read ends: the host has the number, and nothing of the block changes (20_memory.md R35). -/
def finishRead (v : Except Fault Nat) (s : State) : Result :=
  match v with
  | .ok n => .next (s.observe n)
  | .error f => .fault f

/-- A write lands if its address exists (20_memory.md R30; log 11). -/
def writeWithin (b : Buffer) (inside : Bool) (t : State) : Result :=
  if inside then .next t else .fault (.noSuchAddress b)

/-- The command port. A command word goes to CMD and its command runs; an undefined word performs no operation and reports
IllegalCommand (30_encoding.md R60, R61). A received frame runs as the instruction it decodes to, and one that decodes to none is
still given to DEC.PARSE (R63). -/
def issue (image : Image) (s : State) : Result :=
  match image with
  | .command w =>
    match decode (.command w) with
    | .ok i => exec i (s.latch w)
    | .error _ => .next ((s.latch w).fail .port .illegalCommand)
  | .wire f =>
    match decode (.wire f) with
    | .ok i => exec i s
    | .error _ => parseReceived f s

/-- One host interaction. -/
def hostStep (act : HostAction) (s : State) : Result :=
  match act with
  | .writeData b => .next { s with data := b }
  | .writeOp b => .next { s with op := b }
  | .writePin w => .next { s with pin := w }
  | .writeIlen n => if n ≤ s.cfg.ibufCap then .next { s with ilen := n } else .fault .lengthOutOfRange
  | .writeEcnt b => .next { s with ecnt := b }
  | .writeIbuf a b => writeWithin .ibuf (decide (a < s.cfg.ibufCap)) { s with ibuf := Memory.set s.ibuf a b }
  | .writeEntPos j w => writeWithin .ent (decide (j < Config.entCap)) { s with entPos := Memory.set s.entPos j w }
  | .writeEntLen j b => writeWithin .ent (decide (j < Config.entCap)) { s with entLen := Memory.set s.entLen j b }
  | .writeEntVal j i b =>
    writeWithin .ent (decide (j < Config.entCap) && decide (i < Config.valCap))
      { s with entVal := Memory.set s.entVal (entValKey j i) b }
  | .issue image => issue image s
  | .readReg r => finishRead (readRegister s r) s
  | .readObuf a => finishRead (readOutput s a) s
  | .reset => .next s.resetBlock

end Sys2Proof.Machine
end

