-- ==== Sys2Proof/Machine/Step.lean ====
section
/-! DEFINITION. One step: the host's next action and the block's answer to it (20_memory.md R38, 70_reset_and_hazards.md R133, R136). -/

namespace Sys2Proof.Machine

/-- One step takes the next host action. With none left the state is final and stays as it is (70_reset_and_hazards.md R136; log 2). -/
def step (s : State) : Host.Outcome State Fault Refusal :=
  match s.todo with
  | [] => .next s
  | act :: rest => hostStep act (s.withTodo rest)

/-- `s` with an opcode-table word as the host's next action: what the block "fetches" is what the host issues (log 8, log 9). -/
def State.withFetchWord (s : State) (nbits w : Nat) : State :=
  s.withTodo (.issue (tableImage nbits w) :: s.todo)

end Sys2Proof.Machine
end

