-- ==== Sys2Proof/Machine/Lines.lean ====
section
/-! DEFINITION. What a line of the spec's notation means: "the host writes the named operand registers and buffers …, then writes the
command word of rule R60 to CMD" (30_encoding.md R64). -/

namespace Sys2Proof.Machine

/-- The host actions that write a byte sequence to IBUF from an address upwards. -/
def fillActions (a : Nat) : List Byte → List HostAction
  | [] => []
  | b :: bs => .writeIbuf a b :: fillActions (a + 1) bs

/-- A byte sequence in IBUF with ILEN set to its length (30_encoding.md R64). -/
def loadActions (x : List Byte) : List HostAction := fillActions 0 x ++ [.writeIlen x.length]

/-- The host actions that write a value to VAL[i], VAL[i+1], … of entry j. -/
def valueActions (j i : Nat) : List Byte → List HostAction
  | [] => []
  | b :: bs => .writeEntVal j i b :: valueActions j (i + 1) bs

/-- The host actions that write entries to ENT from entry j upwards. -/
def entryActions (j : Nat) : List DcbEntry → List HostAction
  | [] => []
  | e :: es => .writeEntPos j e.position :: .writeEntLen j e.length :: (valueActions j 0 e.value ++ entryActions (j + 1) es)

/-- The host actions of a line. More than 255 entries cannot be presented through ECNT, which is eight bits
(41_frame_encoder.md R93; log 16). -/
def lineActions : CommandLine → List HostAction
  | .crcInit => [.issue (.command 0x00)]
  | .crcByte data => [.writeData data, .issue (.command 0x01)]
  | .crcSum msg => loadActions msg ++ [.issue (.command 0x02)]
  | .encFrame op pin payload => [.writeOp op, .writePin pin] ++ loadActions payload ++ [.issue (.command 0x04)]
  | .encRead pin => [.writePin pin, .issue (.command 0x05)]
  | .encWrite pin entries =>
    .writePin pin :: (entryActions 0 entries ++ [.writeEcnt (BitVec.ofNat 8 entries.length), .issue (.command 0x06)])
  | .decParse frame => loadActions frame ++ [.issue (.command 0x07)]

end Sys2Proof.Machine
end

