-- ==== Sys2Proof/Safety.lean ====
section
/-! DEFINITION. The terms claims use: the invariant of a state, the classes of instructions, what a run observes, and the bit-serial
form of the checksum that 40_crc.md R87 names. -/

namespace Sys2Proof.Machine

/-- Every listed address is below the bound. -/
def Memory.within {α : Type} (bound : Nat) (m : Memory α) : Bool := m.all fun c => decide (c.1 < bound)

/-- The invariant of every state the block can be in: the parameters' constraint (20_memory.md R33), canonical buffers inside
their address spaces (R30), length registers in range (10_state.md Table 10-1), OBUF[0..OLEN-1] all holding values (R16), STATUS one
of its codes (R14), and R_ registers, if they hold values, those of an accepted response (42_frame_decoder.md R100). -/
structure State.Inv (s : State) : Prop where
  cfg : s.cfg.ok = true
  ibufWf : Memory.wf s.ibuf = true
  obufWf : Memory.wf s.obuf = true
  entPosWf : Memory.wf s.entPos = true
  entLenWf : Memory.wf s.entLen = true
  entValWf : Memory.wf s.entVal = true
  ibufIn : Memory.within s.cfg.ibufCap s.ibuf = true
  obufIn : Memory.within s.cfg.obufCap s.obuf = true
  entPosIn : Memory.within Config.entCap s.entPos = true
  entLenIn : Memory.within Config.entCap s.entLen = true
  entValIn : Memory.within (Config.entCap * Config.valCap) s.entVal = true
  ilenIn : s.ilen ≤ s.cfg.ibufCap
  olenIn : s.olen ≤ s.cfg.obufCap
  outputHeld : (Memory.getAll s.obuf 0 s.olen).isSome = true
  status : statusLegal s.status = true
  parsed : ∀ h, s.parsed = some h → h.code = rspReadAck ∧ 9 ≤ h.len.toNat

/-- The seven command words' instructions. -/
def isCommand : Instr → Bool
  | .crcInit | .crcByte | .crcSum | .encFrame | .encRead | .encWrite | .decParse => true
  | .readReq _ _ _ _ | .writeReq _ _ _ _ | .readRsp _ _ _ _ _ => false

/-- The commands of the CRC unit. -/
def isCrcCommand : Instr → Bool
  | .crcInit | .crcByte | .crcSum => true
  | .encFrame | .encRead | .encWrite | .decParse => false
  | .readReq _ _ _ _ | .writeReq _ _ _ _ | .readRsp _ _ _ _ _ => false

/-- The commands of the frame encoder. -/
def isEncoderCommand : Instr → Bool
  | .encFrame | .encRead | .encWrite => true
  | .crcInit | .crcByte | .crcSum | .decParse => false
  | .readReq _ _ _ _ | .writeReq _ _ _ _ | .readRsp _ _ _ _ _ => false

/-- The instructions that run the frame decoder: DEC.PARSE and the three wire frames. -/
def isDecoderInstr : Instr → Bool
  | .decParse => true
  | .readReq _ _ _ _ | .writeReq _ _ _ _ | .readRsp _ _ _ _ _ => true
  | .crcInit | .crcByte | .crcSum | .encFrame | .encRead | .encWrite => false

/-- A step that ends in neither a fault nor a refusal. -/
def goesOn : Result → Bool
  | .next _ => true
  | .fault _ => false
  | .refused _ => false

/-- A step that does not end in a fault: what a safe run asks of each of its steps. -/
def faultFree : Result → Bool
  | .next _ => true
  | .fault _ => false
  | .refused _ => true

/-- The outcome with its next state changed by `f`. -/
def mapNext (f : State → State) : Result → Result
  | .next s => .next (f s)
  | .fault r => .fault r
  | .refused r => .refused r

/-- The outcome seen through a projection of its next state. -/
def outcomeView {α : Type} (f : State → α) : Result → Option α
  | .next s => some (f s)
  | .fault _ => none
  | .refused _ => none

/-- What a command delivers besides STATUS: `crc` for a CRC command; OBUF[0..OLEN-1] for a codec command, with the R_ registers for
the decoder (30_encoding.md Table 30-5, column "results written"). -/
structure Delivered where
  status : Byte
  crc : Option Word
  output : Option (List Byte)
  parsed : Option RespHeader
deriving DecidableEq, Repr

/-- The results of a command, read from the state it leaves. -/
def delivered (i : Instr) (t : State) : Delivered where
  status := t.status
  crc := if isCrcCommand i then some t.crc else none
  output := if isCrcCommand i then none else Memory.getAll t.obuf 0 t.olen
  parsed := if isDecoderInstr i then t.parsed else none

/-- Two states hold the same in every operand register and buffer (10_state.md Table 10-1, R16; not `crc`). -/
def sameOperands (s s' : State) : Prop :=
  s'.cfg = s.cfg ∧ s'.data = s.data ∧ s'.op = s.op ∧ s'.pin = s.pin ∧ s'.ilen = s.ilen ∧ s'.ecnt = s.ecnt ∧
  s'.ibuf = s.ibuf ∧ s'.entPos = s.entPos ∧ s'.entLen = s.entLen ∧ s'.entVal = s.entVal

/-- Two states have the same IBUF[0..ILEN-1], whatever IBUF holds beyond it. -/
def sameMessage (s s' : State) : Prop :=
  s'.ilen = s.ilen ∧ ∀ a, a < s.ilen → Memory.get s'.ibuf a = Memory.get s.ibuf a

/-- Two states have the same ENT[0..ECNT-1], each entry's POS, LEN and VAL[0..LEN-1]. -/
def sameEntries (s s' : State) : Prop :=
  s'.ecnt = s.ecnt ∧ ∀ j, j < s.ecnt.toNat →
    Memory.get s'.entPos j = Memory.get s.entPos j ∧ Memory.get s'.entLen j = Memory.get s.entLen j ∧
    ∀ len i, Memory.get s.entLen j = some len → i < len.toNat →
      Memory.get s'.entVal (entValKey j i) = Memory.get s.entVal (entValKey j i)

/-- Two states give an instruction the same operands, those of its own row of Table 30-5 (30_encoding.md R60) and no others. The
buffer operands are the valid elements only (10_state.md R16); an instance's OBUF_CAP decides whether a result fits, so it is the
same for every instruction that writes OBUF. A received frame is its own operand (log 6) and has to fit IBUF_CAP. -/
def sameRowOperands (i : Instr) (s s' : State) : Prop :=
  match i with
  | .crcInit => True
  | .crcByte => s'.data = s.data ∧ s'.crc = s.crc
  | .crcSum => sameMessage s s'
  | .encFrame => s'.cfg.obufCap = s.cfg.obufCap ∧ s'.op = s.op ∧ s'.pin = s.pin ∧ sameMessage s s'
  | .encRead => s'.cfg.obufCap = s.cfg.obufCap ∧ s'.pin = s.pin
  | .encWrite => s'.cfg.obufCap = s.cfg.obufCap ∧ s'.pin = s.pin ∧ sameEntries s s'
  | .decParse => s'.cfg.obufCap = s.cfg.obufCap ∧ sameMessage s s'
  | .readReq _ _ _ _ | .writeReq _ _ _ _ | .readRsp _ _ _ _ _ => s'.cfg = s.cfg

/-- Two states hold the same in everything but `crc`, STATUS, OBUF, OLEN and the R_ registers: what no command word writes
(10_state.md Table 10-1, R16). -/
def sameInputs (s t : State) : Prop :=
  sameOperands s t ∧ t.cmd = s.cmd ∧ t.todo = s.todo ∧ t.seen = s.seen

/-- One shift of the most-significant-bit-first register of polynomial 0x1021 (40_crc.md R87). -/
def serialShift (c : Word) : Word := (c <<< 1) ^^^ (if c.msb then (0x1021 : Word) else (0 : Word))

/-- The byte step of the bit-serial form: `c XOR (b << 8)`, then eight shifts (40_crc.md R87). -/
def serialByte (c : Word) (b : Byte) : Word :=
  Nat.repeat serialShift 8 (c ^^^ (b.setWidth 16 <<< 8))

/-- The host actions of a streamed checksum: CRC.INIT, then DATA and CRC.BYTE for each byte (70_reset_and_hazards.md Table 70-1). -/
def streamByte (b : Byte) : List HostAction := [.writeData b, .issue (.command 0x01)]

/-- The whole stream of a message. -/
def streamActions (m : List Byte) : List HostAction :=
  .issue (.command 0x00) :: m.flatMap streamByte

end Sys2Proof.Machine
end

