-- ==== Sys2Proof/Certificates/Slice0/Obligations.lean ====
section
/-! DEFINITION. What is to be proved of the model, from the numbered rules of the spec. Names in full; each docstring names the
rule or the log entry its statement rests on. -/

open Sys2Proof Sys2Proof.Machine

/-! ### Reset -/

/-- 10_state.md R19, Table 10-3: the state reset leaves. -/
def Obligations.ResetLeavesTableValues : Prop :=
  State.reset.crc = 0xFFFF ∧ State.reset.cmd = 0x00 ∧ State.reset.status = 0x00 ∧
  State.reset.data = 0x00 ∧ State.reset.op = 0x00 ∧ State.reset.pin = 0x0000 ∧
  State.reset.ilen = 0 ∧ State.reset.ecnt = 0 ∧ State.reset.olen = 0 ∧ State.reset.parsed = none ∧
  (∀ a, Memory.get State.reset.ibuf a = none ∧ Memory.get State.reset.obuf a = none) ∧
  (∀ a, Memory.get State.reset.entPos a = none ∧ Memory.get State.reset.entLen a = none ∧
    Memory.get State.reset.entVal a = none)

/-- 70_reset_and_hazards.md R130: the reset event puts the instance in the state of Table 10-3, from any state. -/
def Obligations.ResetEventRestoresTable : Prop :=
  ∀ (s : State) (rest : List HostAction), s.todo = .reset :: rest →
    ∃ t, step s = .next t ∧
      t.crc = 0xFFFF ∧ t.cmd = 0x00 ∧ t.status = 0x00 ∧ t.data = 0x00 ∧ t.op = 0x00 ∧ t.pin = 0x0000 ∧
      t.ilen = 0 ∧ t.ecnt = 0 ∧ t.olen = 0 ∧ t.parsed = none ∧
      (∀ a, Memory.get t.ibuf a = none ∧ Memory.get t.obuf a = none ∧ Memory.get t.entPos a = none ∧
        Memory.get t.entLen a = none ∧ Memory.get t.entVal a = none)

/-! ### The CRC unit -/

/-- 40_crc.md R80: the nibble step and its corner values, the table as 10_state.md R11 gives it (PRESUMED there, log 5). -/
def Obligations.NibbleStepFormula : Prop :=
  (∀ (c : Word) (n : Nibble),
    nib c n = ((c <<< 4) &&& (0xFFFF : Word)) ^^^ Config.nibbleTable[((c >>> 12).setWidth 4 ^^^ n).toFin]) ∧
  (∀ i : Nibble, tableAt i = (i.setWidth 16 <<< 12) ^^^ (i.setWidth 16 <<< 5) ^^^ i.setWidth 16) ∧
  nib 0x0000 0x0 = 0x0000 ∧ (∀ k : Nibble, nib 0x0000 k = tableAt k) ∧ nib 0xF000 0xF = 0x0000 ∧
  nib 0x0FFF 0x0 = 0xFFF0 ∧ nib 0xFFFF 0x9 = 0x9F36

/-- 40_crc.md R81: CRC.BYTE on every state, and the rule's values. -/
def Obligations.CrcByteTwoNibbleSteps : Prop :=
  (∀ s : State, exec .crcByte s =
    .next { s with crc := nib (nib s.crc ((s.data >>> 4).setWidth 4)) ((s.data &&& 0xF).setWidth 4), status := 0x00 }) ∧
  crcByteStep 0xFFFF 0x00 = 0xE1F0 ∧ crcByteStep 0xFFFF 0xFF = 0xFF00 ∧ crcByteStep 0x0000 0x00 = 0x0000 ∧
  crcByteStep 0xFFFF 0x93 = 0x522A

/-- 40_crc.md R82: CRC.INIT on every state. -/
def Obligations.CrcInitSetsInitialValue : Prop :=
  ∀ s : State, exec .crcInit s = .next { s with crc := 0xFFFF, status := 0x00 }

/-- 40_crc.md R83: CRC.SUM leaves `crc16` of IBUF[0..ILEN-1] in `crc`, and `crc16` obeys its two equations. -/
def Obligations.CrcSumOfMessage : Prop :=
  (∀ (s : State) (m : List Byte), Memory.getAll s.ibuf 0 s.ilen = some m →
    exec .crcSum s = .next { s with crc := crc16 m, status := 0x00 }) ∧
  crc16 [] = 0xFFFF ∧ (∀ (m : List Byte) (b : Byte), crc16 (m ++ [b]) = crcByteStep (crc16 m) b) ∧
  crc16 [0x93, 0x0B, 0x00, 0xD2, 0x04, 0x00, 0x00, 0xFF, 0xFF] = 0xB428

/-- 40_crc.md R83, R86, 30_encoding.md R65: streaming a message with CRC.INIT and one CRC.BYTE per byte, as host actions run by
the step, leaves in `crc` what CRC.SUM leaves, and touches no buffer, no OLEN and no R_ register. -/
def Obligations.StreamedChecksumEqualsSum : Prop :=
  ∀ (s : State) (m : List Byte) (rest : List HostAction), s.todo = streamActions m ++ rest →
    ∃ t, Host.Core.run Sys2Proof.core (1 + 2 * m.length) s = .next t ∧
      t.crc = crc16 m ∧ t.status = 0x00 ∧ t.todo = rest ∧ t.pin = s.pin ∧ t.op = s.op ∧ t.ilen = s.ilen ∧
      t.ibuf = s.ibuf ∧ t.obuf = s.obuf ∧ t.olen = s.olen ∧ t.parsed = s.parsed ∧
      (∀ u : State, Memory.getAll u.ibuf 0 u.ilen = some m →
        exec .crcSum u = .next { u with crc := t.crc, status := t.status })

/-- 40_crc.md R87, 93_implementation_defined.md U2: the byte step is eight shifts of the bit-serial register of polynomial 0x1021. -/
def Obligations.ByteStepEqualsBitSerial : Prop :=
  ∀ (c : Word) (b : Byte), crcByteStep c b = serialByte c b

/-- 42_frame_decoder.md R105, 93_implementation_defined.md U10: changing one covered byte always changes `crc16`. -/
def Obligations.ChecksumDetectsOneByte : Prop :=
  ∀ (pre post : List Byte) (b b' : Byte), b ≠ b' → crc16 (pre ++ b :: post) ≠ crc16 (pre ++ b' :: post)

/-- 10_state.md R10, R12: `crc` changes only by a reset or by a defined CRC command word. -/
def Obligations.CrcChangedOnlyByCrcUnit : Prop :=
  ∀ (s t : State), step s = .next t → t.crc ≠ s.crc →
    ∃ act rest, s.todo = act :: rest ∧
      (act = .reset ∨ act = .issue (.command 0x00) ∨ act = .issue (.command 0x01) ∨ act = .issue (.command 0x02))

/-- 10_state.md R12: a codec instruction neither reads nor writes `crc`. -/
def Obligations.CodecIgnoresCrc : Prop :=
  ∀ (i : Instr) (s : State) (c : Word), isCrcCommand i = false →
    exec i { s with crc := c } = mapNext (fun t => { t with crc := c }) (exec i s)

/-- 10_state.md R12: what an instruction delivers is a function of the operands of its own row of 30_encoding.md Table 30-5 alone:
nothing for CRC.INIT, PIN for ENC.READ, and so on, `crc` an operand of CRC.BYTE only. The two states differ freely in everything
else, unrelated operand registers and buffers and all an earlier command left behind. A wire frame is its own operand (log 6). -/
def Obligations.ResultsDependOnOperandsOnly : Prop :=
  ∀ (i : Instr) (s s' : State), sameRowOperands i s s' →
    outcomeView (delivered i) (exec i s') = outcomeView (delivered i) (exec i s)

/-! ### The frame encoder -/

/-- 41_frame_encoder.md R90: ENC.FRAME for every operation code, pin and payload; the failing case first. That case asks no byte
of the payload to hold a value, since the length test comes before any is read (log 10, DEDUCED). -/
def Obligations.EncFrameBuildsFrame : Prop :=
  ∀ s : State,
    (65535 < 5 + s.ilen + 2 ∨ s.cfg.obufCap < 5 + s.ilen + 2 →
      exec .encFrame s = .next { s with status := 0x10, olen := 0 }) ∧
    (∀ p f : List Byte, 5 + s.ilen + 2 ≤ 65535 → 5 + s.ilen + 2 ≤ s.cfg.obufCap →
      Memory.getAll s.ibuf 0 s.ilen = some p →
      f = [s.op] ++ le16 (BitVec.ofNat 16 (s.ilen + 7)) ++ le16 s.pin ++ p →
      exec .encFrame s =
        .next { s with obuf := Memory.setAll s.obuf 0 (f ++ le16 (crc16 f)), olen := s.ilen + 7, status := 0x00 })

/-- 41_frame_encoder.md R91: ENC.READ, from PIN alone. -/
def Obligations.EncReadBuildsRequest : Prop :=
  ∀ (s : State) (f : List Byte),
    f = [0x93, 0x0B, 0x00, s.pin.setWidth 8, (s.pin >>> 8).setWidth 8, 0x00, 0x00, 0xFF, 0xFF] →
    (11 ≤ s.cfg.obufCap →
      exec .encRead s =
        .next { s with obuf := Memory.setAll s.obuf 0 (f ++ le16 (crc16 f)), olen := 11, status := 0x00 }) ∧
    (s.cfg.obufCap < 11 → exec .encRead s = .next { s with status := 0x10, olen := 0 })

/-- 41_frame_encoder.md R92 for entries read from the registers and ENT, where TooManyEntries and BadEntry cannot arise; the
failing case second. `es` lists the ECNT entries, each POS, LEN and VAL[0..LEN-1] as ENT holds them. -/
def Obligations.EncWriteBuildsRequest : Prop :=
  ∀ (s : State) (es : List DcbEntry) (n : Nat) (f : List Byte),
    es.length = s.ecnt.toNat →
    (∀ j e, es[j]? = some e → Memory.get s.entPos j = some e.position ∧ Memory.get s.entLen j = some e.length ∧
      Memory.getAll s.entVal (255 * j) e.length.toNat = some e.value) →
    n = 1 + (es.map fun e => 3 + e.length.toNat).sum →
    f = [0xA3] ++ le16 (BitVec.ofNat 16 (n + 7)) ++ le16 s.pin ++ [s.ecnt] ++
      (es.flatMap fun e => le16 e.position ++ [e.length] ++ e.value) →
    (5 + n + 2 ≤ 65535 ∧ 5 + n + 2 ≤ s.cfg.obufCap →
      exec .encWrite s =
        .next { s with obuf := Memory.setAll s.obuf 0 (f ++ le16 (crc16 f)), olen := n + 7, status := 0x00 }) ∧
    (65535 < 5 + n + 2 ∨ s.cfg.obufCap < 5 + n + 2 →
      exec .encWrite s = .next { s with status := 0x10, olen := 0 })

/-- 41_frame_encoder.md R93 for a list operand (log 16): TooManyEntries, then BadEntry, then FrameTooLong. -/
def Obligations.WriteRefusalsInOrder : Prop :=
  ∀ (c : Config) (pin : Word) (es : List DcbEntry),
    (255 < es.length → buildWrite c pin es = .error .tooManyEntries) ∧
    (es.length ≤ 255 → (∃ e ∈ es, e.value.length ≠ e.length.toNat) → buildWrite c pin es = .error .badEntry) ∧
    (es.length ≤ 255 → (∀ e ∈ es, e.value.length = e.length.toNat) →
      (65535 < 8 + (es.map fun e => 3 + e.length.toNat).sum ∨
        c.obufCap < 8 + (es.map fun e => 3 + e.length.toNat).sum) →
      buildWrite c pin es = .error .frameTooLong)

/-- 41_frame_encoder.md R94: every frame an encoder command leaves in OBUF has its real length in its length field, its pin, its
operation code and its payload unchanged (the serialised entries for ENC.WRITE), and the checksum of every preceding byte in its
last two bytes. -/
def Obligations.EmittedFramesMeetInvariants : Prop :=
  ∀ (i : Instr) (s t : State), isEncoderCommand i = true → exec i s = .next t → t.status = 0x00 →
    ∃ f : List Byte, Memory.getAll t.obuf 0 t.olen = some f ∧ 7 ≤ t.olen ∧ t.olen ≤ 65535 ∧ t.olen ≤ t.cfg.obufCap ∧
      rd16 f 1 = some (BitVec.ofNat 16 t.olen) ∧ rd16 f 3 = some s.pin ∧
      rd16 f (t.olen - 2) = some (crc16 (f.take (t.olen - 2))) ∧
      (i = .encFrame → f[0]? = some s.op ∧ some ((f.drop 5).take (t.olen - 7)) = Memory.getAll s.ibuf 0 s.ilen) ∧
      (i = .encRead → f[0]? = some 0x93 ∧ (f.drop 5).take (t.olen - 7) = [0x00, 0x00, 0xFF, 0xFF]) ∧
      (i = .encWrite → f[0]? = some 0xA3 ∧ f[5]? = some s.ecnt ∧ ∃ es, s.entries = some es ∧
        (f.drop 5).take (t.olen - 7) =
          s.ecnt :: es.flatMap fun e => le16 e.position ++ [e.length] ++ e.value)

/-- 41_frame_encoder.md R90 to R93, 20_memory.md R43: the frame of the encoder commands. OBUF at and beyond the new OLEN reads as
before; a failing command (OLEN = 0) leaves every byte. -/
def Obligations.EncoderFrame : Prop :=
  ∀ (i : Instr) (s t : State), isEncoderCommand i = true → exec i s = .next t →
    sameInputs s t ∧ t.crc = s.crc ∧ t.parsed = s.parsed ∧
    (∀ a, t.olen ≤ a → Memory.get t.obuf a = Memory.get s.obuf a) ∧
    (t.status ≠ 0x00 → t.olen = 0 ∧ t.obuf = s.obuf)

/-- 30_encoding.md R65: ENC.READ delivers what ENC.FRAME delivers for operation code 0x93 and payload 00 00 FF FF, and ENC.WRITE
what ENC.FRAME delivers for operation code 0xA3 and the serialised entries. -/
def Obligations.PseudoInstructionsExpand : Prop :=
  ∀ (s u : State), u.cfg = s.cfg → u.pin = s.pin →
    (u.op = 0x93 → Memory.getAll u.ibuf 0 u.ilen = some [0x00, 0x00, 0xFF, 0xFF] →
      outcomeView (delivered .encRead) (exec .encRead s) = outcomeView (delivered .encFrame) (exec .encFrame u)) ∧
    (∀ es : List DcbEntry, s.entries = some es → u.op = 0xA3 →
      Memory.getAll u.ibuf 0 u.ilen = some (s.ecnt :: es.flatMap fun e => le16 e.position ++ [e.length] ++ e.value) →
      outcomeView (delivered .encWrite) (exec .encWrite s) = outcomeView (delivered .encFrame) (exec .encFrame u))

/-! ### The frame decoder -/

/-- 42_frame_decoder.md R100: DEC.PARSE on every frame the host can put in IBUF, by the first failing check. Success has two
premises more, the parameters' constraint and the range of ILEN, both of the invariant: with them the slice fits OBUF. -/
def Obligations.DecParseChecksInOrder : Prop :=
  ∀ (s : State) (f : List Byte), Memory.getAll s.ibuf 0 s.ilen = some f →
    (f[0]? ≠ some 0x94 → exec .decParse s = .next { s with status := 0x01, olen := 0, parsed := none }) ∧
    (f[0]? = some 0x94 → (s.ilen < 9 ∨ ∀ len, rd16 f 1 = some len → len.toNat ≠ s.ilen) →
      exec .decParse s = .next { s with status := 0x02, olen := 0, parsed := none }) ∧
    (∀ len sent, f[0]? = some 0x94 → 9 ≤ s.ilen → rd16 f 1 = some len → len.toNat = s.ilen →
      rd16 f (s.ilen - 2) = some sent → crc16 (f.take (s.ilen - 2)) ≠ sent →
      exec .decParse s = .next { s with status := 0x03, olen := 0, parsed := none }) ∧
    (∀ len start count, s.cfg.ok = true → s.ilen ≤ s.cfg.ibufCap →
      f[0]? = some 0x94 → 9 ≤ s.ilen → rd16 f 1 = some len → len.toNat = s.ilen →
      rd16 f (s.ilen - 2) = some (crc16 (f.take (s.ilen - 2))) → rd16 f 3 = some start → rd16 f 5 = some count →
      exec .decParse s =
        .next { s with
          parsed := some { code := 0x94, len := len, start := start, count := count },
          obuf := Memory.setAll s.obuf 0 ((f.drop 7).take (s.ilen - 9)), olen := s.ilen - 9, status := 0x00 })

/-- 42_frame_decoder.md R102: short frames, by the bytes the rule names; no other byte of IBUF need hold a value (log 10,
DEDUCED). -/
def Obligations.ShortFramesRejected : Prop :=
  ∀ s : State,
    (s.ilen = 0 → exec .decParse s = .next { s with status := 0x01, olen := 0, parsed := none }) ∧
    (s.ilen = 1 ∨ s.ilen = 2 → Memory.get s.ibuf 0 = some 0x94 →
      exec .decParse s = .next { s with status := 0x02, olen := 0, parsed := none }) ∧
    (3 ≤ s.ilen → s.ilen ≤ 8 → Memory.get s.ibuf 0 = some 0x94 →
      Memory.get16 s.ibuf 1 = some (BitVec.ofNat 16 s.ilen) →
      exec .decParse s = .next { s with status := 0x02, olen := 0, parsed := none })

/-- 42_frame_decoder.md R100, R101, R103: the frame of DEC.PARSE. On OK the slice read back from OBUF is IBUF[7..ILEN-3]; on a
failure nothing of OBUF changes; OBUF at and beyond the new OLEN reads as before. -/
def Obligations.DecParseFrame : Prop :=
  ∀ (s t : State), exec .decParse s = .next t →
    sameInputs s t ∧ t.crc = s.crc ∧
    (∀ a, t.olen ≤ a → Memory.get t.obuf a = Memory.get s.obuf a) ∧
    (t.status = 0x00 → 9 ≤ s.ilen ∧ t.olen = s.ilen - 9 ∧
      Memory.getAll t.obuf 0 t.olen = Memory.getAll s.ibuf 7 (s.ilen - 9)) ∧
    (t.status ≠ 0x00 → t.olen = 0 ∧ t.obuf = s.obuf ∧ t.parsed = none)

/-- 42_frame_decoder.md R104: a frame ENC.FRAME has built, put into the IBUF of any instance, parses back: the pin as startAddr,
the first two payload bytes as byteCount, the rest as the slice, when the operation code is 0x94 and the payload has at least two
bytes; otherwise it fails with the kind the rule gives. -/
def Obligations.BuildThenParseRoundTrip : Prop :=
  ∀ (s t u : State) (p f : List Byte), Memory.getAll s.ibuf 0 s.ilen = some p → exec .encFrame s = .next t →
    t.status = 0x00 → Memory.getAll t.obuf 0 t.olen = some f → Memory.getAll u.ibuf 0 u.ilen = some f →
    (s.op ≠ 0x94 → exec .decParse u = .next { u with status := 0x01, olen := 0, parsed := none }) ∧
    (s.op = 0x94 → p.length < 2 → exec .decParse u = .next { u with status := 0x02, olen := 0, parsed := none }) ∧
    (∀ count, u.cfg.ok = true → u.ilen ≤ u.cfg.ibufCap → s.op = 0x94 → 2 ≤ p.length → rd16 p 0 = some count →
      exec .decParse u =
        .next { u with
          parsed := some { code := 0x94, len := BitVec.ofNat 16 (p.length + 7), start := s.pin, count := count },
          obuf := Memory.setAll u.obuf 0 (p.drop 2), olen := p.length - 2, status := 0x00 })

/-- 42_frame_decoder.md R105: one changed byte of an accepted frame is always rejected, with the kind the offset decides. -/
def Obligations.MutatedFrameRejected : Prop :=
  ∀ (s t : State) (i : Nat) (b b' : Byte), exec .decParse s = .next t → t.status = 0x00 →
    i < s.ilen → Memory.get s.ibuf i = some b → b' ≠ b →
    exec .decParse { s with ibuf := Memory.set s.ibuf i b' } =
      .next { s with
        ibuf := Memory.set s.ibuf i b', olen := 0, parsed := none,
        status := if i = 0 then 0x01 else if i ≤ 2 then 0x02 else 0x03 }

/-- 10_state.md R15, step by step from reset: the R_ registers hold no value after reset; a step that runs DEC.PARSE leaves them
holding values exactly if it ends OK; every other step but a reset leaves them as they are; a host read of one without value is
no number. That a received frame runs DEC.PARSE is log 6, that a read without a number is a fault is log 12, both DEDUCED. -/
def Obligations.ResponseRegistersFollowParse : Prop :=
  State.reset.parsed = none ∧
  (∀ (s t : State) (act : HostAction) (rest : List HostAction), s.todo = act :: rest → step s = .next t →
    (act = .reset → t.parsed = none) ∧
    (act = .issue (.command 0x07) ∨ (∃ f, act = .issue (.wire f)) → (t.parsed.isSome = true ↔ t.status = 0x00)) ∧
    (act ≠ .reset → act ≠ .issue (.command 0x07) → (∀ f, act ≠ .issue (.wire f)) → t.parsed = s.parsed)) ∧
  (∀ (s : State) (r : HostReg) (rest : List HostAction), s.parsed = none →
    r = .rCode ∨ r = .rLen ∨ r = .rStart ∨ r = .rCount → s.todo = .readReg r :: rest →
    step s = .fault (.noValue r))

/-! ### The wire frames -/

/-- 30_encoding.md R63: the decoder rejects a read request, whatever else it contains. The frame's bytes stand in IBUF after it
(R64, log 6). -/
def Obligations.ReadRequestFrameRejected : Prop :=
  ∀ (s : State) (len pin : Word) (payload : List Byte) (sum : Word) (f : List Byte),
    f = [0x93] ++ le16 len ++ le16 pin ++ payload ++ le16 sum → f.length ≤ s.cfg.ibufCap →
    exec (.readReq len pin payload sum) s =
      .next { s with
        ibuf := Memory.setAll s.ibuf 0 f, ilen := f.length, cmd := 0x07, status := 0x01, olen := 0, parsed := none }

/-- 30_encoding.md R63: the decoder rejects a write request, whatever else it contains. -/
def Obligations.WriteRequestFrameRejected : Prop :=
  ∀ (s : State) (len pin : Word) (entries : List DcbEntry) (sum : Word) (f : List Byte),
    f = [0xA3] ++ le16 len ++ le16 pin ++ [BitVec.ofNat 8 entries.length] ++
      (entries.flatMap fun e => le16 e.position ++ [e.length] ++ e.value) ++ le16 sum →
    f.length ≤ s.cfg.ibufCap →
    exec (.writeReq len pin entries sum) s =
      .next { s with
        ibuf := Memory.setAll s.ibuf 0 f, ilen := f.length, cmd := 0x07, status := 0x01, olen := 0, parsed := none }

/-- 30_encoding.md R54, 42_frame_decoder.md R100: a read response is accepted when its length field is its length and its checksum
field is `crc16` of the rest, whatever its byteCount says (R103). -/
def Obligations.ReadResponseFrameAccepted : Prop :=
  ∀ (s : State) (len start count : Word) (dcb : List Byte) (sum : Word) (g f : List Byte),
    g = [0x94] ++ le16 len ++ le16 start ++ le16 count ++ dcb → f = g ++ le16 sum → s.cfg.ok = true →
    f.length ≤ s.cfg.ibufCap → len.toNat = f.length → sum = crc16 g →
    exec (.readRsp len start count dcb sum) s =
      .next { s with
        ibuf := Memory.setAll s.ibuf 0 f, ilen := f.length, cmd := 0x07,
        parsed := some { code := 0x94, len := len, start := start, count := count },
        obuf := Memory.setAll s.obuf 0 dcb, olen := dcb.length, status := 0x00 }

/-- 42_frame_decoder.md R100, 60_exceptions.md R112: a read response with a wrong length field is rejected with LengthMismatch
whatever its checksum says, and one with a right length field and a wrong checksum field with ChecksumMismatch. -/
def Obligations.ReadResponseFrameRejected : Prop :=
  ∀ (s : State) (len start count : Word) (dcb : List Byte) (sum : Word) (g f : List Byte),
    g = [0x94] ++ le16 len ++ le16 start ++ le16 count ++ dcb → f = g ++ le16 sum → f.length ≤ s.cfg.ibufCap →
    (len.toNat ≠ f.length → exec (.readRsp len start count dcb sum) s =
      .next { s with
        ibuf := Memory.setAll s.ibuf 0 f, ilen := f.length, cmd := 0x07, status := 0x02, olen := 0, parsed := none }) ∧
    (len.toNat = f.length → sum ≠ crc16 g → exec (.readRsp len start count dcb sum) s =
      .next { s with
        ibuf := Memory.setAll s.ibuf 0 f, ilen := f.length, cmd := 0x07, status := 0x03, olen := 0, parsed := none })

/-- 30_encoding.md R64: whatever bytes a received frame has, whether or not they decode to an instruction, the host's line runs
DEC.PARSE on IBUF, ILEN and CMD loaded with them; a frame longer than IBUF_CAP has bytes without an address (log 11). -/
def Obligations.ReceivedFrameRunsDecParse : Prop :=
  ∀ (s : State) (f : List Byte) (rest : List HostAction), s.todo = .issue (.wire f) :: rest →
    (f.length ≤ s.cfg.ibufCap → step s =
      exec .decParse { s with todo := rest, ibuf := Memory.setAll s.ibuf 0 f, ilen := f.length, cmd := 0x07 }) ∧
    (s.cfg.ibufCap < f.length → step s = .fault (.noSuchAddress .ibuf))

/-! ### Encoding -/

/-- Decoding an encoded instruction gives it back, with every operand at every value its layout admits (30_encoding.md R51 to
R54, R60). -/
def Obligations.DecodeOfEncode : Prop :=
  ∀ i : Instr, i.encodable = true → decode (encode i) = .ok i

/-- Whatever decodes is the encoding of what it decodes to: no bit of a command word or of a frame is dropped, and no two images
are one instruction (30_encoding.md R51 to R54, R60, R61). -/
def Obligations.EncodeOfDecode : Prop :=
  ∀ (image : Image) (i : Instr), decode image = .ok i → encode i = image ∧ i.encodable = true

/-- 30_encoding.md R60, R61, Table 30-5: the seven command words, and no others. -/
def Obligations.CommandWordsDecode : Prop :=
  decode (.command 0x00) = .ok .crcInit ∧ decode (.command 0x01) = .ok .crcByte ∧
  decode (.command 0x02) = .ok .crcSum ∧ decode (.command 0x04) = .ok .encFrame ∧
  decode (.command 0x05) = .ok .encRead ∧ decode (.command 0x06) = .ok .encWrite ∧
  decode (.command 0x07) = .ok .decParse ∧
  (∀ w : Byte, w = 0x03 ∨ 8 ≤ w.toNat → decode (.command w) = .error (.undefinedCommand w))

/-- Frames of 95_test_vectors.md (S2, S5, V-DEC-1) decode to the fields their rules name. -/
def Obligations.KnownFramesDecode : Prop :=
  decode (.wire [0x93, 0x0B, 0x00, 0xD2, 0x04, 0x00, 0x00, 0xFF, 0xFF, 0x28, 0xB4]) =
    .ok (.readReq 0x000B 0x04D2 [0x00, 0x00, 0xFF, 0xFF] 0xB428) ∧
  decode (.wire [0xA3, 0x15, 0x00, 0xD2, 0x04, 0x03, 0x12, 0x00, 0x01, 0x14, 0x20, 0x00, 0x02, 0x1E, 0x00, 0x13, 0x00,
      0x01, 0x17, 0x6C, 0xC1]) =
    .ok (.writeReq 0x0015 0x04D2 [⟨0x0012, 1, [0x14]⟩, ⟨0x0020, 2, [0x1E, 0x00]⟩, ⟨0x0013, 1, [0x17]⟩] 0xC16C) ∧
  decode (.wire [0x94, 0x0D, 0x00, 0x00, 0x00, 0x04, 0x00, 0x04, 0x00, 0x01, 0x02, 0xC7, 0x0E]) =
    .ok (.readRsp 0x000D 0x0000 0x0004 [0x04, 0x00, 0x01, 0x02] 0x0EC7)

/-- 30_encoding.md R57, 20_memory.md R31: a 16-bit field is its low byte, then its high byte, at face value. -/
def Obligations.FieldsLittleEndian : Prop :=
  (∀ v : Word, le16 v = [v.setWidth 8, (v >>> 8).setWidth 8] ∧ ∀ x : List Byte, rd16 (x ++ le16 v) x.length = some v) ∧
  (∀ lo hi : Byte, (join16 lo hi).toNat = lo.toNat + 256 * hi.toNat) ∧
  (∀ (x : List Byte) (i : Nat) (lo hi : Byte), x[i]? = some lo → x[i + 1]? = some hi →
    rd16 x i = some (lo.setWidth 16 ||| (hi.setWidth 16 <<< 8)))

/-! ### Steps and host interactions -/

/-- A step runs the decoded instruction: a command word on the state whose action list has moved on and whose CMD holds the word;
a frame on the state whose action list has moved on (20_memory.md R38, 30_encoding.md R60). The action list is log 1, a frame as an
instruction log 6, the word held in CMD log 18. -/
def Obligations.StepRunsDecodedInstruction : Prop :=
  ∀ (s : State) (i : Instr) (rest : List HostAction),
    (∀ w : Byte, s.todo = .issue (.command w) :: rest → decode (.command w) = .ok i →
      step s = exec i { s with todo := rest, cmd := w }) ∧
    (∀ f : List Byte, s.todo = .issue (.wire f) :: rest → decode (.wire f) = .ok i →
      step s = exec i { s with todo := rest })

/-- 30_encoding.md R61: an undefined command word performs no operation; STATUS is IllegalCommand and nothing else changes. (CMD
itself holds what the host wrote to it, log 18, and the host's action list moves on, log 1: no clause is about either.) -/
def Obligations.UndefinedCommandWord : Prop :=
  ∀ (s : State) (w : Byte) (rest : List HostAction), s.todo = .issue (.command w) :: rest → w = 0x03 ∨ 8 ≤ w.toNat →
    ∃ t, step s = .next t ∧ t = { s with status := 0x1F, cmd := t.cmd, todo := t.todo }

/-- 10_state.md R13, Table 10-1: each host write of an operand register writes that register alone; ILEN takes 0 to IBUF_CAP
(beyond it the model stops, log 11). -/
def Obligations.HostRegisterWrites : Prop :=
  ∀ (s : State) (rest : List HostAction),
    (∀ b, s.todo = .writeData b :: rest → step s = .next { s with todo := rest, data := b }) ∧
    (∀ b, s.todo = .writeOp b :: rest → step s = .next { s with todo := rest, op := b }) ∧
    (∀ w, s.todo = .writePin w :: rest → step s = .next { s with todo := rest, pin := w }) ∧
    (∀ b, s.todo = .writeEcnt b :: rest → step s = .next { s with todo := rest, ecnt := b }) ∧
    (∀ n, s.todo = .writeIlen n :: rest → n ≤ s.cfg.ibufCap → step s = .next { s with todo := rest, ilen := n }) ∧
    (∀ n, s.todo = .writeIlen n :: rest → s.cfg.ibufCap < n → step s = .fault .lengthOutOfRange)

/-- 20_memory.md R30, 10_state.md R16, R20: a host write to IBUF or ENT inside the address space gives exactly that element its
value, every other element of that space reads as before, and nothing else changes; outside it the model stops (log 11). -/
def Obligations.HostBufferWrites : Prop :=
  ∀ (s : State) (rest : List HostAction),
    (∀ a b, s.todo = .writeIbuf a b :: rest →
      (a < s.cfg.ibufCap → ∃ m, step s = .next { s with todo := rest, ibuf := m } ∧
        ∀ x, Memory.get m x = if x = a then some b else Memory.get s.ibuf x) ∧
      (s.cfg.ibufCap ≤ a → step s = .fault (.noSuchAddress .ibuf))) ∧
    (∀ j w, s.todo = .writeEntPos j w :: rest →
      (j ≤ 254 → ∃ m, step s = .next { s with todo := rest, entPos := m } ∧
        ∀ x, Memory.get m x = if x = j then some w else Memory.get s.entPos x) ∧
      (255 ≤ j → step s = .fault (.noSuchAddress .ent))) ∧
    (∀ j b, s.todo = .writeEntLen j b :: rest →
      (j ≤ 254 → ∃ m, step s = .next { s with todo := rest, entLen := m } ∧
        ∀ x, Memory.get m x = if x = j then some b else Memory.get s.entLen x) ∧
      (255 ≤ j → step s = .fault (.noSuchAddress .ent))) ∧
    (∀ j i b, s.todo = .writeEntVal j i b :: rest →
      (j ≤ 254 → i ≤ 254 → ∃ m, step s = .next { s with todo := rest, entVal := m } ∧
        ∀ x, Memory.get m x = if x = 255 * j + i then some b else Memory.get s.entVal x) ∧
      (255 ≤ j ∨ 255 ≤ i → step s = .fault (.noSuchAddress .ent)))

/-- 30_encoding.md R64, 20_memory.md R38: the line `CRC.SUM msg=f`, run as its host actions one a step, leaves `crc16(f)` in `crc`. -/
def Obligations.LineCrcSumChecksums : Prop :=
  ∀ (s : State) (f : List Byte) (rest : List HostAction), f.length ≤ s.cfg.ibufCap →
    s.todo = lineActions (.crcSum f) ++ rest →
    ∃ t, Host.Core.run Sys2Proof.core (f.length + 2) s = .next t ∧
      t.crc = crc16 f ∧ t.status = 0x00 ∧ t.cmd = 0x02 ∧ t.todo = rest ∧ Memory.getAll t.ibuf 0 t.ilen = some f ∧
      t.obuf = s.obuf ∧ t.olen = s.olen ∧ t.parsed = s.parsed

/-- 30_encoding.md R64, 41_frame_encoder.md R92: the line `ENC.WRITE pin=… entries=…`, run as its host actions one a step, leaves in
OBUF the write request of exactly those entries, whatever ENT held before. -/
def Obligations.LineEncWriteBuilds : Prop :=
  ∀ (s : State) (pin : Word) (es : List DcbEntry) (rest : List HostAction), es.length ≤ 255 →
    (∀ e ∈ es, e.value.length = e.length.toNat) →
    8 + (es.map fun e => 3 + e.length.toNat).sum ≤ 65535 →
    8 + (es.map fun e => 3 + e.length.toNat).sum ≤ s.cfg.obufCap →
    s.todo = lineActions (.encWrite pin es) ++ rest →
    ∃ t, Host.Core.run Sys2Proof.core (lineActions (.encWrite pin es)).length s = .next t ∧
      t.status = 0x00 ∧ t.todo = rest ∧ t.crc = s.crc ∧ t.parsed = s.parsed ∧ t.ibuf = s.ibuf ∧
      Memory.getAll t.obuf 0 t.olen = some (frame 0xA3 pin
        (BitVec.ofNat 8 es.length :: es.flatMap fun e => le16 e.position ++ [e.length] ++ e.value))

/-- 30_encoding.md R64 and log 6: the line `DEC.PARSE frame=f`, run as its host actions one a step, ends as the one action that hands
over the received frame does. -/
def Obligations.LineDecParseIsReceivedFrame : Prop :=
  ∀ (s : State) (f : List Byte) (rest : List HostAction), f.length ≤ s.cfg.ibufCap →
    s.todo = lineActions (.decParse f) ++ rest →
    Host.Core.run Sys2Proof.core (f.length + 2) s = step { s with todo := .issue (.wire f) :: rest }

/-- 20_memory.md R35, 10_state.md Table 10-1: a read that ends changes nothing of the block; what it returns is the register's
value, or the byte of OBUF below OLEN. The read log is the model's (log 3). -/
def Obligations.HostReadsChangeNothing : Prop :=
  ∀ (s t : State) (act : HostAction) (rest : List HostAction), s.todo = act :: rest →
    (∃ r, act = .readReg r) ∨ (∃ a, act = .readObuf a) → step s = .next t →
    ∃ v, t = { s with todo := rest, seen := v :: s.seen } ∧
      (act = .readReg .status → v = s.status.toNat) ∧ (act = .readReg .data → v = s.data.toNat) ∧
      (act = .readReg .op → v = s.op.toNat) ∧ (act = .readReg .pin → v = s.pin.toNat) ∧
      (act = .readReg .ilen → v = s.ilen) ∧ (act = .readReg .ecnt → v = s.ecnt.toNat) ∧
      (act = .readReg .crc → v = s.crc.toNat) ∧ (act = .readReg .olen → v = s.olen) ∧
      (∀ h, s.parsed = some h → (act = .readReg .rCode → v = h.code.toNat) ∧ (act = .readReg .rLen → v = h.len.toNat) ∧
        (act = .readReg .rStart → v = h.start.toNat) ∧ (act = .readReg .rCount → v = h.count.toNat)) ∧
      (∀ a, act = .readObuf a → a < s.olen ∧ ∃ b, Memory.get s.obuf a = some b ∧ v = b.toNat)

/-- 93_implementation_defined.md U5, 10_state.md Table 10-1: where a host read has no number. A read of OBUF at or beyond OLEN and a
read of the write-only CMD stop (log 12); a read of any register but CMD and the R_ registers goes on in every state, and one of an
R_ register when they hold values. -/
def Obligations.HostReadsWithoutNumber : Prop :=
  ∀ (s : State) (rest : List HostAction),
    (∀ a, s.todo = .readObuf a :: rest → s.olen ≤ a → step s = .fault (.noValidByte a)) ∧
    (s.todo = .readReg .cmd :: rest → step s = .fault (.writeOnly .cmd)) ∧
    (∀ r, s.todo = .readReg r :: rest → r ≠ .cmd → r ≠ .rCode → r ≠ .rLen → r ≠ .rStart → r ≠ .rCount →
      ∃ t, step s = .next t) ∧
    (∀ r, s.todo = .readReg r :: rest → r ≠ .cmd → s.parsed.isSome = true → ∃ t, step s = .next t) ∧
    (∀ a, s.Inv → s.todo = .readObuf a :: rest → a < s.olen → ∃ t, step s = .next t)

/-- 70_reset_and_hazards.md R136 and log 2: with no host action left the state is final. -/
def Obligations.FinalStateStays : Prop :=
  ∀ s : State, s.todo = [] → step s = .next s

/-- 10_state.md R20, 93_implementation_defined.md U4: a command made to read a buffer element nobody has written is refused.
DEC.PARSE reads byte 0, then the length field, then every byte, so an unwritten byte is refused where its checks reach it, and never
accepted (log 10, DEDUCED). -/
def Obligations.UnwrittenOperandRefused : Prop :=
  ∀ s : State,
    (∀ a, a < s.ilen → Memory.get s.ibuf a = none →
      exec .crcSum s = .refused (.unwrittenOperand .ibuf) ∧
      (s.ilen + 7 ≤ 65535 → s.ilen + 7 ≤ s.cfg.obufCap → exec .encFrame s = .refused (.unwrittenOperand .ibuf)) ∧
      (∀ t, exec .decParse s = .next t → t.status ≠ 0x00)) ∧
    (1 ≤ s.ilen → Memory.get s.ibuf 0 = none → exec .decParse s = .refused (.unwrittenOperand .ibuf)) ∧
    (3 ≤ s.ilen → Memory.get s.ibuf 0 = some 0x94 → Memory.get s.ibuf 1 = none ∨ Memory.get s.ibuf 2 = none →
      exec .decParse s = .refused (.unwrittenOperand .ibuf)) ∧
    (∀ a lo hi, 9 ≤ s.ilen → Memory.get s.ibuf 0 = some 0x94 → Memory.get s.ibuf 1 = some lo → Memory.get s.ibuf 2 = some hi →
      lo.toNat + 256 * hi.toNat = s.ilen → a < s.ilen → Memory.get s.ibuf a = none →
      exec .decParse s = .refused (.unwrittenOperand .ibuf)) ∧
    (∀ j, j < s.ecnt.toNat → (Memory.get s.entPos j = none ∨ Memory.get s.entLen j = none ∨
        ∃ l i, Memory.get s.entLen j = some l ∧ i < l.toNat ∧ Memory.get s.entVal (255 * j + i) = none) →
      exec .encWrite s = .refused (.unwrittenOperand .ent))

/-! ### The whole machine -/

/-- 10_state.md R14, Table 10-2: which codes each command can leave in STATUS. The decoder's codes are stated of the wire frames as
instructions too (log 6, DEDUCED). -/
def Obligations.StatusCodesByCommand : Prop :=
  (∀ (i : Instr) (s t : State), exec i s = .next t →
    (isCrcCommand i = true → t.status = 0x00) ∧
    (i = .encFrame ∨ i = .encRead → t.status = 0x00 ∨ t.status = 0x10) ∧
    (i = .encWrite → t.status = 0x00 ∨ t.status = 0x10 ∨ t.status = 0x11 ∨ t.status = 0x12) ∧
    (isDecoderInstr i = true → t.status = 0x00 ∨ t.status = 0x01 ∨ t.status = 0x02 ∨ t.status = 0x03)) ∧
  (∀ (s : State) (w : Byte) (rest : List HostAction), s.todo = .issue (.command w) :: rest →
    (∀ i, decode (.command w) ≠ .ok i) → outcomeView State.status (step s) = some 0x1F)

/-- 60_exceptions.md R113: a failing command has written STATUS, has cleared OLEN, has taken the R_ values away if it is
DEC.PARSE, and nothing else; an undefined command word writes STATUS only. -/
def Obligations.FailureWritesNothingElse : Prop :=
  (∀ (i : Instr) (s t : State), isCommand i = true → exec i s = .next t → t.status ≠ 0x00 →
    t = { s with status := t.status, olen := 0, parsed := if i = .decParse then none else s.parsed }) ∧
  (∀ (s t : State) (w : Byte) (rest : List HostAction), s.todo = .issue (.command w) :: rest →
    (∀ i, decode (.command w) ≠ .ok i) → step s = .next t →
    t = { s with status := 0x1F, cmd := t.cmd, todo := t.todo })

/-- 60_exceptions.md R120: the CRC commands are total on their operands and end with STATUS OK, and ENC.READ fails only if
OBUF_CAP is below 11. -/
def Obligations.CrcNeverFails : Prop :=
  (∀ s : State, ∃ t, exec .crcInit s = .next t ∧ t.status = 0x00) ∧
  (∀ s : State, ∃ t, exec .crcByte s = .next t ∧ t.status = 0x00) ∧
  (∀ (s : State) (m : List Byte), Memory.getAll s.ibuf 0 s.ilen = some m → ∃ t, exec .crcSum s = .next t ∧ t.status = 0x00) ∧
  (∀ (i : Instr) (s t : State), exec i s = .next t → isCrcCommand i = true → t.status = 0x00) ∧
  (∀ (s t : State), exec .encRead s = .next t → t.status ≠ 0x00 → s.cfg.obufCap < 11)

/-- 60_exceptions.md R115: a failure is not sticky. The next command runs on the operands as it would have run had the failure
not happened. -/
def Obligations.FailureNotSticky : Prop :=
  ∀ (i : Instr) (s : State) (r : Raiser) (k : Failure), isCommand i = true →
    outcomeView (delivered i) (exec i (s.fail r k)) = outcomeView (delivered i) (exec i s)

/-- 10_state.md R13, R16, Table 10-1: no command writes CMD, DATA, OP, PIN, ILEN, ECNT, IBUF or ENT; the CRC commands write only
`crc` and STATUS. -/
def Obligations.CommandsKeepOperands : Prop :=
  ∀ (i : Instr) (s t : State), isCommand i = true → exec i s = .next t →
    sameInputs s t ∧ (isCrcCommand i = true → t = { s with crc := t.crc, status := 0x00 })

/-- The invariant of `Sys2Proof.Machine.State.Inv` at reset. -/
def Obligations.InvariantAtReset : Prop := State.reset.Inv

/-- Every step keeps the invariant: canonical buffers inside their address spaces, length registers in range, OBUF[0..OLEN-1]
holding values, STATUS one of its codes, the R_ registers those of an accepted response (10_state.md R13, R14, R16, 20_memory.md
R30, 42_frame_decoder.md R100). -/
def Obligations.InvariantKeptByStep : Prop :=
  ∀ (s t : State), s.Inv → step s = .next t → t.Inv

/-- Under the invariant no command faults. The one fault a command has is that of a slice longer than OBUF_CAP (log 20), which the
parameters' constraint excludes (20_memory.md R33). -/
def Obligations.NoCommandFaults : Prop :=
  ∀ (i : Instr) (s : State), s.Inv → isCommand i = true → faultFree (exec i s) = true

/-- 20_memory.md R30, R33, R43: where an instruction writes. A byte of OBUF that changes is below the new OLEN, and the new OLEN of
a command that writes OBUF is at most OBUF_CAP; IBUF changes only under a received frame (log 6), below the new ILEN, which is at
most IBUF_CAP; ENT never changes. -/
def Obligations.WritesStayInBuffers : Prop :=
  ∀ (i : Instr) (s t : State), exec i s = .next t →
    (∀ a, Memory.get t.obuf a ≠ Memory.get s.obuf a → isCrcCommand i = false ∧ a < t.olen) ∧
    (isCrcCommand i = false → t.olen ≤ s.cfg.obufCap) ∧
    (∀ a, Memory.get t.ibuf a ≠ Memory.get s.ibuf a → isCommand i = false ∧ a < t.ilen) ∧
    (isCommand i = false → t.ilen ≤ s.cfg.ibufCap) ∧
    t.entPos = s.entPos ∧ t.entLen = s.entLen ∧ t.entVal = s.entVal

/-- 10_state.md R16: "Bytes at or beyond the valid length of a buffer are never read by any command", IBUF from ILEN on, the entries
of ENT from ECNT on and VAL from an entry's LEN on. Writing such an element before a command changes nothing of what the command
does, be it a next state, a fault or a refusal. -/
def Obligations.NothingBeyondValidLengthRead : Prop :=
  ∀ (i : Instr) (s : State), isCommand i = true →
    (∀ a b, s.ilen ≤ a → exec i { s with ibuf := Memory.set s.ibuf a b } =
      mapNext (fun t => { t with ibuf := Memory.set t.ibuf a b }) (exec i s)) ∧
    (∀ j w, s.ecnt.toNat ≤ j → exec i { s with entPos := Memory.set s.entPos j w } =
      mapNext (fun t => { t with entPos := Memory.set t.entPos j w }) (exec i s)) ∧
    (∀ j b, s.ecnt.toNat ≤ j → exec i { s with entLen := Memory.set s.entLen j b } =
      mapNext (fun t => { t with entLen := Memory.set t.entLen j b }) (exec i s)) ∧
    (∀ j k b, k ≤ 254 → (s.ecnt.toNat ≤ j ∨ ∀ len, Memory.get s.entLen j = some len → len.toNat ≤ k) →
      exec i { s with entVal := Memory.set s.entVal (255 * j + k) b } =
        mapNext (fun t => { t with entVal := Memory.set t.entVal (255 * j + k) b }) (exec i s))

/-- A received frame that fits IBUF always completes under the parameters' constraint: DEC.PARSE is total on written bytes
(70_reset_and_hazards.md R135, 42_frame_decoder.md R106). -/
def Obligations.ReceivedFrameCompletes : Prop :=
  ∀ (i : Instr) (s : State), isCommand i = false → s.cfg.ok = true → (wireBytes i).length ≤ s.cfg.ibufCap →
    ∃ t, exec i s = .next t ∧ t.cmd = 0x07 ∧ t.ilen = (wireBytes i).length ∧
      Memory.getAll t.ibuf 0 t.ilen = some (wireBytes i) ∧
      (∀ a, t.ilen ≤ a → Memory.get t.ibuf a = Memory.get s.ibuf a) ∧
      (∀ a, t.olen ≤ a → Memory.get t.obuf a = Memory.get s.obuf a) ∧
      t.crc = s.crc ∧ t.data = s.data ∧ t.op = s.op ∧ t.pin = s.pin ∧ t.ecnt = s.ecnt ∧ t.entPos = s.entPos ∧
      t.entLen = s.entLen ∧ t.entVal = s.entVal ∧ t.cfg = s.cfg
end

