-- ==== Sys2Proof/Laws/Memory.lean ====
section
/-! SUPPORT. What the buffer operations can do: reads after writes, the canonical form and the address bound are kept. -/

namespace Sys2Proof.Machine

variable {α : Type}

@[simp] theorem Memory.get_nil (a : Nat) : Memory.get ([] : Memory α) a = none := rfl

@[simp] theorem Memory.setAll_nil (m : Memory α) (a : Nat) : Memory.setAll m a [] = m := rfl

@[simp] theorem Memory.setAll_cons (m : Memory α) (a : Nat) (v : α) (vs : List α) :
    Memory.setAll m a (v :: vs) = Memory.setAll (Memory.set m a v) (a + 1) vs := rfl

@[simp] theorem Memory.getAll_zero (m : Memory α) (a : Nat) : Memory.getAll m a 0 = some [] := rfl

/-- A canonical memory's tail is canonical. -/
theorem Memory.wf_tail {c : Nat × α} {m : Memory α} (h : Memory.wf (c :: m) = true) : Memory.wf m = true := by
  cases m with
  | nil => rfl
  | cons d m => simp only [Memory.wf, Bool.and_eq_true] at h; exact h.2

/-- Below the first address of a canonical memory nothing is listed. -/
theorem Memory.get_below {k : Nat} {w : α} {m : Memory α} (h : Memory.wf ((k, w) :: m) = true) {a : Nat} (ha : a < k) :
    Memory.get ((k, w) :: m) a = none := by
  induction m generalizing k w with
  | nil => simp only [Memory.get]; split <;> [omega; rfl]
  | cons d m ih =>
    obtain ⟨d, x⟩ := d
    have hd := h
    simp only [Memory.wf, Bool.and_eq_true, decide_eq_true_eq] at hd
    rw [Memory.get, if_neg (by omega)]
    exact ih hd.2 (by omega)

/-- Read after write: the written address reads the value, every other address reads as before. -/
theorem Memory.get_set (m : Memory α) (a b : Nat) (v : α) :
    Memory.get (Memory.set m a v) b = if b = a then some v else Memory.get m b := by
  induction m with
  | nil => simp only [Memory.set, Memory.get]; grind
  | cons c m ih =>
    obtain ⟨k, w⟩ := c
    simp only [Memory.set]
    split
    · simp only [Memory.get]; grind
    · split
      · simp only [Memory.get]; grind
      · simp only [Memory.get, ih]; grind

@[simp] theorem Memory.get_set_same (m : Memory α) (a : Nat) (v : α) : Memory.get (Memory.set m a v) a = some v := by
  simp [Memory.get_set]

/-- A block write is read back inside its range and leaves every other address alone. -/
theorem Memory.get_setAll (m : Memory α) (a b : Nat) (vs : List α) :
    Memory.get (Memory.setAll m a vs) b = if a ≤ b ∧ b < a + vs.length then vs[b - a]? else Memory.get m b := by
  induction vs generalizing m a with
  | nil => simp only [Memory.setAll_nil, List.length_nil]; rw [if_neg (by omega)]
  | cons v vs ih =>
    rw [Memory.setAll_cons, ih, Memory.get_set, List.length_cons]
    by_cases hb : b = a
    · subst hb; simp
    · by_cases hin : a ≤ b ∧ b < a + (vs.length + 1)
      · rw [if_pos (by omega), if_pos hin, show b - a = (b - (a + 1)) + 1 by omega, List.getElem?_cons_succ]
      · rw [if_neg (by omega), if_neg hb, if_neg hin]

/-- Whoever reads `n` elements gets `n` elements. -/
theorem Memory.getAll_length {m : Memory α} {a n : Nat} {vs : List α} (h : Memory.getAll m a n = some vs) :
    vs.length = n := by
  induction n generalizing a vs with
  | zero => simp only [Memory.getAll_zero, Option.some.injEq] at h; simp [← h]
  | succ n ih =>
    rw [Memory.getAll] at h
    split at h <;> simp only [Option.some.injEq, reduceCtorEq] at h
    next v ws _ h2 => rw [← h, List.length_cons, ih h2]

/-- A block read succeeds with `vs` exactly when every element of the range reads as `vs` says. -/
theorem Memory.getAll_iff {m : Memory α} {a n : Nat} {vs : List α} :
    Memory.getAll m a n = some vs ↔ vs.length = n ∧ ∀ i, i < n → Memory.get m (a + i) = vs[i]? := by
  induction n generalizing a vs with
  | zero =>
    simp only [Memory.getAll_zero, Option.some.injEq]
    exact ⟨fun h => by simp [← h], fun h => (List.length_eq_zero_iff.mp h.1).symm⟩
  | succ n ih =>
    rw [Memory.getAll]
    constructor
    · intro h
      split at h <;> simp only [Option.some.injEq, reduceCtorEq] at h
      next v ws h1 h2 =>
        obtain ⟨hl, hg⟩ := ih.mp h2
        subst h
        refine ⟨by simp [hl], fun i hi => ?_⟩
        cases i with
        | zero => simpa using h1
        | succ i =>
          have := hg i (by omega)
          rw [show a + (i + 1) = a + 1 + i by omega]
          simpa using this
    · rintro ⟨hl, hg⟩
      cases vs with
      | nil => simp at hl
      | cons v ws =>
        have h1 : Memory.get m a = some v := by simpa using hg 0 (by omega)
        have h2 : Memory.getAll m (a + 1) n = some ws := by
          refine ih.mpr ⟨by simpa using hl, fun i hi => ?_⟩
          have := hg (i + 1) (by omega)
          rw [show a + 1 + i = a + (i + 1) by omega]
          simpa using this
        simp [h1, h2]

/-- Reading a block write back gives what was written. -/
theorem Memory.getAll_setAll (m : Memory α) (a : Nat) (vs : List α) :
    Memory.getAll (Memory.setAll m a vs) a vs.length = some vs := by
  refine Memory.getAll_iff.mpr ⟨rfl, fun i hi => ?_⟩
  rw [Memory.get_setAll, if_pos (by omega), Nat.add_sub_cancel_left]

/-- A read of part of a range that reads as `vs` gives that part. -/
theorem Memory.getAll_part {m : Memory α} {a n : Nat} {vs : List α} (h : Memory.getAll m a n = some vs)
    {i k : Nat} (hik : i + k ≤ n) : Memory.getAll m (a + i) k = some ((vs.drop i).take k) := by
  obtain ⟨hl, hg⟩ := Memory.getAll_iff.mp h
  refine Memory.getAll_iff.mpr ⟨by simp; omega, fun j hj => ?_⟩
  rw [Nat.add_assoc, hg (i + j) (by omega), List.getElem?_take, if_pos hj, List.getElem?_drop]

/-- A block read only looks at its range. -/
theorem Memory.getAll_congr {m m' : Memory α} {a n : Nat}
    (h : ∀ i, i < n → Memory.get m (a + i) = Memory.get m' (a + i)) : Memory.getAll m a n = Memory.getAll m' a n := by
  induction n generalizing a with
  | zero => rfl
  | succ n ih =>
    have h0 : Memory.get m a = Memory.get m' a := by simpa using h 0 (by omega)
    have ht : Memory.getAll m (a + 1) n = Memory.getAll m' (a + 1) n := by
      refine ih fun i hi => ?_
      rw [show a + 1 + i = a + (i + 1) by omega]; exact h (i + 1) (by omega)
    rw [Memory.getAll, Memory.getAll, h0, ht]

/-- A two-byte read inside a range that reads as `vs` is `rd16` of `vs` (20_memory.md R33). -/
theorem Memory.get16_of_getAll {m : Memory Byte} {n : Nat} {vs : List Byte} (h : Memory.getAll m 0 n = some vs)
    {i : Nat} (hi : i + 2 ≤ n) : Memory.get16 m i = rd16 vs i := by
  obtain ⟨_, hg⟩ := Memory.getAll_iff.mp h
  have h0 := hg i (by omega)
  have h1 := hg (i + 1) (by omega)
  rw [Nat.zero_add] at h0 h1
  rcases hx : vs[i]? with _ | x <;> rcases hy : vs[i + 1]? with _ | y <;> simp [Memory.get16, rd16, h0, h1, hx, hy]

/-- Writing one element keeps the canonical form. -/
theorem Memory.wf_set {m : Memory α} (h : Memory.wf m = true) (a : Nat) (v : α) : Memory.wf (Memory.set m a v) = true := by
  induction m with
  | nil => rfl
  | cons c m ih =>
    obtain ⟨k, w⟩ := c
    rw [Memory.set]
    split
    · next hlt => simp only [Memory.wf, Bool.and_eq_true, decide_eq_true_eq]; exact ⟨hlt, h⟩
    · split
      · next heq =>
        subst heq
        cases m with
        | nil => rfl
        | cons d m => simpa only [Memory.wf] using h
      · next h1 h2 =>
        have iht := ih (Memory.wf_tail h)
        cases m with
        | nil => simp only [Memory.set, Memory.wf, Bool.and_true, decide_eq_true_eq]; omega
        | cons d m =>
          obtain ⟨d, x⟩ := d
          simp only [Memory.wf, Bool.and_eq_true, decide_eq_true_eq] at h
          rw [Memory.set] at iht ⊢
          split at iht <;> rename_i hc
          · simp only [if_pos hc, Memory.wf, Bool.and_eq_true, decide_eq_true_eq] at iht ⊢
            exact ⟨by omega, iht⟩
          · simp only [if_neg hc]
            split at iht <;> rename_i he
            · simp only [if_pos he, Memory.wf, Bool.and_eq_true, decide_eq_true_eq]
              exact ⟨by omega, iht⟩
            · simp only [if_neg he, Memory.wf, Bool.and_eq_true, decide_eq_true_eq]
              exact ⟨by omega, iht⟩

/-- A block write keeps the canonical form. -/
theorem Memory.wf_setAll {m : Memory α} (h : Memory.wf m = true) (a : Nat) (vs : List α) :
    Memory.wf (Memory.setAll m a vs) = true := by
  induction vs generalizing m a with
  | nil => exact h
  | cons v vs ih => exact ih (Memory.wf_set h a v) (a + 1)

/-- Writing one element inside the bound keeps every listed address inside it. -/
theorem Memory.within_set {bound : Nat} {m : Memory α} (h : Memory.within bound m = true) {a : Nat} (ha : a < bound) (v : α) :
    Memory.within bound (Memory.set m a v) = true := by
  induction m with
  | nil => simpa [Memory.set, Memory.within] using ha
  | cons c m ih =>
    obtain ⟨k, w⟩ := c
    simp only [Memory.within, List.all_cons, Bool.and_eq_true, decide_eq_true_eq] at h ih
    rw [Memory.set]
    split
    · simp only [Memory.within, List.all_cons, Bool.and_eq_true, decide_eq_true_eq]; exact ⟨ha, h⟩
    · split <;> simp only [Memory.within, List.all_cons, Bool.and_eq_true, decide_eq_true_eq]
      · exact ⟨ha, h.2⟩
      · exact ⟨h.1, ih h.2⟩

/-- A block write inside the bound keeps every listed address inside it. -/
theorem Memory.within_setAll {bound : Nat} {m : Memory α} (h : Memory.within bound m = true) {a : Nat} {vs : List α}
    (hv : a + vs.length ≤ bound) : Memory.within bound (Memory.setAll m a vs) = true := by
  induction vs generalizing m a with
  | nil => exact h
  | cons v vs ih =>
    simp only [List.length_cons] at hv
    exact ih (Memory.within_set h (by omega) v) (by omega)

end Sys2Proof.Machine
end

