-- ==== Sys2Proof/Laws/Codec.lean ====
section
/-! SUPPORT. The small lemmas of the codec's pure functions: sizes of frames and entries, byte order, operand lists, and what the
decoder's checks can answer. -/

namespace Sys2Proof.Machine

@[simp] theorem le16_length (v : Word) : (le16 v).length = 2 := rfl

@[simp] theorem frameBody_length (op : Byte) (pin : Word) (p : List Byte) : (frameBody op pin p).length = p.length + 5 := by
  simp [frameBody]; omega

@[simp] theorem frame_length (op : Byte) (pin : Word) (p : List Byte) : (frame op pin p).length = p.length + 7 := by
  simp [frame]

@[simp] theorem crc16_nil : crc16 [] = 0xFFFF := rfl

theorem crc16_append (a b : List Byte) : crc16 (a ++ b) = b.foldl crcByteStep (crc16 a) := List.foldl_append

/-- The serialised size of a list of entries whose LEN fields are right (30_encoding.md R52). -/
theorem serEntries_length {es : List DcbEntry} (h : es.all entryOk = true) :
    (serEntries es).length = (es.map fun e => 3 + e.length.toNat).sum := by
  induction es with
  | nil => rfl
  | cons e es ih =>
    simp only [List.all_cons, Bool.and_eq_true, entryOk, beq_iff_eq] at h
    have := ih (by simpa [entryOk] using h.2)
    simp [serEntries, serEntry, this, h.1]; omega

/-- The payload of a write request has the length its rule computes (41_frame_encoder.md R92). -/
theorem serPayload_length {es : List DcbEntry} (h : es.all entryOk = true) : (serPayload es).length = serLength es := by
  simp [serPayload, serLength, serEntries_length h]; omega

/-- An entry read from ENT has as many value bytes as its LEN says (41_frame_encoder.md R93). -/
theorem State.entry_ok {s : State} {j : Nat} {e : DcbEntry} (h : s.entry j = some e) : entryOk e = true := by
  unfold State.entry at h
  split at h
  · split at h <;> simp only [Option.some.injEq, reduceCtorEq] at h
    next hv => subst h; simpa [entryOk] using Memory.getAll_length hv
  · simp at h

/-- The entries read from ENT: as many as asked for, each with the right LEN. -/
theorem State.entriesFrom_ok {s : State} {j n : Nat} {es : List DcbEntry} (h : s.entriesFrom j n = some es) :
    es.length = n ∧ es.all entryOk = true := by
  induction n generalizing j es with
  | zero => simp only [State.entriesFrom, Option.some.injEq] at h; simp [← h]
  | succ n ih =>
    rw [State.entriesFrom] at h
    split at h <;> simp only [Option.some.injEq, reduceCtorEq] at h
    next e es' he hes => subst h; simp [ih hes, State.entry_ok he]

/-- The operand of ENC.WRITE read from the registers passes the first two checks of 41_frame_encoder.md R93. -/
theorem State.entries_ok {s : State} {es : List DcbEntry} (h : s.entries = some es) :
    es.length = s.ecnt.toNat ∧ es.length ≤ 255 ∧ es.all entryOk = true := by
  obtain ⟨hl, ha⟩ := State.entriesFrom_ok h
  have := s.ecnt.isLt
  exact ⟨hl, by omega, ha⟩

/-- What building a write request can answer, with the condition of each answer. -/
theorem buildWrite_cases (c : Config) (pin : Word) (es : List DcbEntry) :
    (255 < es.length ∧ buildWrite c pin es = .error .tooManyEntries) ∨
    (es.length ≤ 255 ∧ es.all entryOk = false ∧ buildWrite c pin es = .error .badEntry) ∨
    (es.length ≤ 255 ∧ es.all entryOk = true ∧ frameFits c (serLength es) = false ∧
      buildWrite c pin es = .error .frameTooLong) ∨
    (es.length ≤ 255 ∧ es.all entryOk = true ∧ frameFits c (serLength es) = true ∧
      buildWrite c pin es = .ok (frame opcWrite pin (serPayload es))) := by
  unfold buildWrite
  by_cases hl : 255 < es.length
  · exact .inl ⟨hl, by rw [if_pos hl]⟩
  · cases ha : es.all entryOk
    · exact .inr (.inl ⟨by omega, rfl, by rw [if_neg hl]; rfl⟩)
    · cases hf : frameFits c (serLength es)
      · exact .inr (.inr (.inl ⟨by omega, rfl, rfl, by rw [if_neg hl]; rfl⟩))
      · exact .inr (.inr (.inr ⟨by omega, rfl, rfl, by rw [if_neg hl]; rfl⟩))

/-- A frame that fits: at most 65535 bytes and at most OBUF_CAP. -/
theorem frameFits_iff (c : Config) (n : Nat) : frameFits c n = true ↔ n + 7 ≤ 65535 ∧ n + 7 ≤ c.obufCap := by
  rw [frameFits, Bool.and_eq_true, decide_eq_true_iff, decide_eq_true_iff, totalLength, Config.maxFrame]; omega

/-- What an accepted response's header and slice are (42_frame_decoder.md R100). -/
structure Accepted (m : Memory Byte) (n : Nat) (h : RespHeader) (slice : List Byte) : Prop where
  code : Memory.get m 0 = some rspReadAck ∧ h.code = rspReadAck
  len : Memory.get16 m 1 = some h.len ∧ h.len.toNat = n
  long : 9 ≤ n
  sum : ∃ covered, Memory.getAll m 0 (n - 2) = some covered ∧ Memory.get16 m (n - 2) = some (crc16 covered)
  start : Memory.get16 m 3 = some h.start
  count : Memory.get16 m 5 = some h.count
  slice : Memory.getAll m 7 (n - 9) = some slice

/-- The kinds a failing parse can report (60_exceptions.md R110). -/
def isParseFailure : Failure → Bool
  | .invalidResponseCode | .lengthMismatch | .checksumMismatch => true
  | .frameTooLong | .tooManyEntries | .badEntry | .illegalCommand => false

/-- What the decoder's checks can answer: an accepted response, or one of three kinds. -/
theorem parseBuffer_cases {m : Memory Byte} {n : Nat} {v : Verdict} (hv : parseBuffer m n = some v) :
    (∃ h x, v = .ok (h, x) ∧ Accepted m n h x) ∨ (∃ k, v = .error k ∧ isParseFailure k = true) := by
  unfold parseBuffer checkLength checkSum readResponse at hv
  repeat' (split at hv)
  all_goals first
    | (simp only [reduceCtorEq] at hv)
    | (simp only [Option.some.injEq] at hv; exact .inr ⟨_, hv.symm, rfl⟩)
    | skip
  rename_i start count slice hstart hcount hslice
  simp only [Option.some.injEq] at hv
  exact .inl ⟨_, _, hv.symm, by constructor <;> grind⟩

/-! What the operands depend on: elements at or beyond a valid length never matter (10_state.md R16). -/

theorem State.message_congr {s s' : State} (h : sameMessage s s') : s'.message = s.message := by
  rw [State.message, State.message, h.1]
  exact Memory.getAll_congr fun i hi => h.2 _ (by omega)

/-- An entry depends on its POS, its LEN and VAL[0..LEN-1]. -/
theorem State.entry_congr {s s' : State} {j : Nat} (hp : Memory.get s'.entPos j = Memory.get s.entPos j)
    (hl : Memory.get s'.entLen j = Memory.get s.entLen j)
    (hv : ∀ len i, Memory.get s.entLen j = some len → i < len.toNat →
      Memory.get s'.entVal (entValKey j i) = Memory.get s.entVal (entValKey j i)) : s'.entry j = s.entry j := by
  unfold State.entry
  rw [hp, hl]
  rcases Memory.get s.entPos j with _ | pos
  · rfl
  rcases hlen : Memory.get s.entLen j with _ | len
  · rfl
  have hval : Memory.getAll s'.entVal (entValKey j 0) len.toNat = Memory.getAll s.entVal (entValKey j 0) len.toNat :=
    Memory.getAll_congr fun i hi => hv len i hlen hi
  simp only [hval]

theorem State.entriesFrom_congr {s s' : State} {j n : Nat} (h : ∀ k, j ≤ k → k < j + n → s'.entry k = s.entry k) :
    s'.entriesFrom j n = s.entriesFrom j n := by
  induction n generalizing j with
  | zero => rfl
  | succ n ih =>
    rw [State.entriesFrom, State.entriesFrom, h j (by omega) (by omega), ih fun k hk hk' => h k (by omega) (by omega)]

theorem State.entries_congr {s s' : State} (h : sameEntries s s') : s'.entries = s.entries := by
  rw [State.entries, State.entries, h.1]
  refine State.entriesFrom_congr fun k _ hk => ?_
  obtain ⟨hp, hl, hv⟩ := h.2 k (by omega)
  exact State.entry_congr hp hl hv

/-- Whether a frame fits depends on OBUF_CAP alone. -/
theorem frameFits_congr {c c' : Config} (h : c'.obufCap = c.obufCap) (n : Nat) : frameFits c' n = frameFits c n := by
  rw [frameFits, frameFits, h]

theorem buildWrite_congr {c c' : Config} (h : c'.obufCap = c.obufCap) (pin : Word) (es : List DcbEntry) :
    buildWrite c' pin es = buildWrite c pin es := by
  simp only [buildWrite, frameFits_congr h]

/-- The decoder's checks depend on IBUF[0..n-1] alone. -/
theorem parseBuffer_congr {m m' : Memory Byte} {n : Nat} (h : ∀ a, a < n → Memory.get m' a = Memory.get m a) :
    parseBuffer m' n = parseBuffer m n := by
  have h16 : ∀ a, a + 2 ≤ n → Memory.get16 m' a = Memory.get16 m a := fun a ha => by
    simp only [Memory.get16, h a (by omega), h (a + 1) (by omega)]
  have hAll : ∀ a k, a + k ≤ n → Memory.getAll m' a k = Memory.getAll m a k := fun a k hk =>
    Memory.getAll_congr fun i hi => h (a + i) (by omega)
  unfold parseBuffer checkLength checkSum readResponse
  by_cases h1 : n < 1
  · simp only [h1, if_true]
  by_cases h3 : n < 3
  · simp only [h 0 (by omega), h3, if_true]
  by_cases h9 : n < 9
  · simp only [h 0 (by omega), h16 1 (by omega), h9, if_true]
  · simp only [h 0 (by omega), h16 1 (by omega), h16 (n - 2) (by omega), hAll 0 (n - 2) (by omega), h16 3 (by omega),
      h16 5 (by omega), hAll 7 (n - 9) (by omega)]

end Sys2Proof.Machine
end

