-- ==== Sys2Proof/Laws/State.lean ====
section
/-! SUPPORT. One lemma per field per named update of State, so that no later proof unfolds a record update. -/

namespace Sys2Proof.Machine

section
variable (c : Word) (s : State)

@[simp] theorem State.putCrc_cfg : (s.putCrc c).cfg = s.cfg := rfl
@[simp] theorem State.putCrc_crc : (s.putCrc c).crc = c := rfl
@[simp] theorem State.putCrc_cmd : (s.putCrc c).cmd = s.cmd := rfl
@[simp] theorem State.putCrc_status : (s.putCrc c).status = statusOk := rfl
@[simp] theorem State.putCrc_data : (s.putCrc c).data = s.data := rfl
@[simp] theorem State.putCrc_op : (s.putCrc c).op = s.op := rfl
@[simp] theorem State.putCrc_pin : (s.putCrc c).pin = s.pin := rfl
@[simp] theorem State.putCrc_ilen : (s.putCrc c).ilen = s.ilen := rfl
@[simp] theorem State.putCrc_ecnt : (s.putCrc c).ecnt = s.ecnt := rfl
@[simp] theorem State.putCrc_ibuf : (s.putCrc c).ibuf = s.ibuf := rfl
@[simp] theorem State.putCrc_entPos : (s.putCrc c).entPos = s.entPos := rfl
@[simp] theorem State.putCrc_entLen : (s.putCrc c).entLen = s.entLen := rfl
@[simp] theorem State.putCrc_entVal : (s.putCrc c).entVal = s.entVal := rfl
@[simp] theorem State.putCrc_obuf : (s.putCrc c).obuf = s.obuf := rfl
@[simp] theorem State.putCrc_olen : (s.putCrc c).olen = s.olen := rfl
@[simp] theorem State.putCrc_parsed : (s.putCrc c).parsed = s.parsed := rfl
@[simp] theorem State.putCrc_todo : (s.putCrc c).todo = s.todo := rfl
@[simp] theorem State.putCrc_seen : (s.putCrc c).seen = s.seen := rfl

end

section
variable (f : List Byte) (s : State)

@[simp] theorem State.putFrame_cfg : (s.putFrame f).cfg = s.cfg := rfl
@[simp] theorem State.putFrame_crc : (s.putFrame f).crc = s.crc := rfl
@[simp] theorem State.putFrame_cmd : (s.putFrame f).cmd = s.cmd := rfl
@[simp] theorem State.putFrame_status : (s.putFrame f).status = statusOk := rfl
@[simp] theorem State.putFrame_data : (s.putFrame f).data = s.data := rfl
@[simp] theorem State.putFrame_op : (s.putFrame f).op = s.op := rfl
@[simp] theorem State.putFrame_pin : (s.putFrame f).pin = s.pin := rfl
@[simp] theorem State.putFrame_ilen : (s.putFrame f).ilen = s.ilen := rfl
@[simp] theorem State.putFrame_ecnt : (s.putFrame f).ecnt = s.ecnt := rfl
@[simp] theorem State.putFrame_ibuf : (s.putFrame f).ibuf = s.ibuf := rfl
@[simp] theorem State.putFrame_entPos : (s.putFrame f).entPos = s.entPos := rfl
@[simp] theorem State.putFrame_entLen : (s.putFrame f).entLen = s.entLen := rfl
@[simp] theorem State.putFrame_entVal : (s.putFrame f).entVal = s.entVal := rfl
@[simp] theorem State.putFrame_obuf : (s.putFrame f).obuf = Memory.setAll s.obuf 0 f := rfl
@[simp] theorem State.putFrame_olen : (s.putFrame f).olen = f.length := rfl
@[simp] theorem State.putFrame_parsed : (s.putFrame f).parsed = s.parsed := rfl
@[simp] theorem State.putFrame_todo : (s.putFrame f).todo = s.todo := rfl
@[simp] theorem State.putFrame_seen : (s.putFrame f).seen = s.seen := rfl

end

section
variable (h : RespHeader) (x : List Byte) (s : State)

@[simp] theorem State.putResponse_cfg : (s.putResponse h x).cfg = s.cfg := rfl
@[simp] theorem State.putResponse_crc : (s.putResponse h x).crc = s.crc := rfl
@[simp] theorem State.putResponse_cmd : (s.putResponse h x).cmd = s.cmd := rfl
@[simp] theorem State.putResponse_status : (s.putResponse h x).status = statusOk := rfl
@[simp] theorem State.putResponse_data : (s.putResponse h x).data = s.data := rfl
@[simp] theorem State.putResponse_op : (s.putResponse h x).op = s.op := rfl
@[simp] theorem State.putResponse_pin : (s.putResponse h x).pin = s.pin := rfl
@[simp] theorem State.putResponse_ilen : (s.putResponse h x).ilen = s.ilen := rfl
@[simp] theorem State.putResponse_ecnt : (s.putResponse h x).ecnt = s.ecnt := rfl
@[simp] theorem State.putResponse_ibuf : (s.putResponse h x).ibuf = s.ibuf := rfl
@[simp] theorem State.putResponse_entPos : (s.putResponse h x).entPos = s.entPos := rfl
@[simp] theorem State.putResponse_entLen : (s.putResponse h x).entLen = s.entLen := rfl
@[simp] theorem State.putResponse_entVal : (s.putResponse h x).entVal = s.entVal := rfl
@[simp] theorem State.putResponse_obuf : (s.putResponse h x).obuf = Memory.setAll s.obuf 0 x := rfl
@[simp] theorem State.putResponse_olen : (s.putResponse h x).olen = x.length := rfl
@[simp] theorem State.putResponse_parsed : (s.putResponse h x).parsed = some h := rfl
@[simp] theorem State.putResponse_todo : (s.putResponse h x).todo = s.todo := rfl
@[simp] theorem State.putResponse_seen : (s.putResponse h x).seen = s.seen := rfl

end

section
variable (w : Byte) (s : State)

@[simp] theorem State.latch_cfg : (s.latch w).cfg = s.cfg := rfl
@[simp] theorem State.latch_crc : (s.latch w).crc = s.crc := rfl
@[simp] theorem State.latch_cmd : (s.latch w).cmd = w := rfl
@[simp] theorem State.latch_status : (s.latch w).status = s.status := rfl
@[simp] theorem State.latch_data : (s.latch w).data = s.data := rfl
@[simp] theorem State.latch_op : (s.latch w).op = s.op := rfl
@[simp] theorem State.latch_pin : (s.latch w).pin = s.pin := rfl
@[simp] theorem State.latch_ilen : (s.latch w).ilen = s.ilen := rfl
@[simp] theorem State.latch_ecnt : (s.latch w).ecnt = s.ecnt := rfl
@[simp] theorem State.latch_ibuf : (s.latch w).ibuf = s.ibuf := rfl
@[simp] theorem State.latch_entPos : (s.latch w).entPos = s.entPos := rfl
@[simp] theorem State.latch_entLen : (s.latch w).entLen = s.entLen := rfl
@[simp] theorem State.latch_entVal : (s.latch w).entVal = s.entVal := rfl
@[simp] theorem State.latch_obuf : (s.latch w).obuf = s.obuf := rfl
@[simp] theorem State.latch_olen : (s.latch w).olen = s.olen := rfl
@[simp] theorem State.latch_parsed : (s.latch w).parsed = s.parsed := rfl
@[simp] theorem State.latch_todo : (s.latch w).todo = s.todo := rfl
@[simp] theorem State.latch_seen : (s.latch w).seen = s.seen := rfl

end

section
variable (f : List Byte) (s : State)

@[simp] theorem State.loadFrame_cfg : (s.loadFrame f).cfg = s.cfg := rfl
@[simp] theorem State.loadFrame_crc : (s.loadFrame f).crc = s.crc := rfl
@[simp] theorem State.loadFrame_cmd : (s.loadFrame f).cmd = 0x07 := rfl
@[simp] theorem State.loadFrame_status : (s.loadFrame f).status = s.status := rfl
@[simp] theorem State.loadFrame_data : (s.loadFrame f).data = s.data := rfl
@[simp] theorem State.loadFrame_op : (s.loadFrame f).op = s.op := rfl
@[simp] theorem State.loadFrame_pin : (s.loadFrame f).pin = s.pin := rfl
@[simp] theorem State.loadFrame_ilen : (s.loadFrame f).ilen = f.length := rfl
@[simp] theorem State.loadFrame_ecnt : (s.loadFrame f).ecnt = s.ecnt := rfl
@[simp] theorem State.loadFrame_ibuf : (s.loadFrame f).ibuf = Memory.setAll s.ibuf 0 f := rfl
@[simp] theorem State.loadFrame_entPos : (s.loadFrame f).entPos = s.entPos := rfl
@[simp] theorem State.loadFrame_entLen : (s.loadFrame f).entLen = s.entLen := rfl
@[simp] theorem State.loadFrame_entVal : (s.loadFrame f).entVal = s.entVal := rfl
@[simp] theorem State.loadFrame_obuf : (s.loadFrame f).obuf = s.obuf := rfl
@[simp] theorem State.loadFrame_olen : (s.loadFrame f).olen = s.olen := rfl
@[simp] theorem State.loadFrame_parsed : (s.loadFrame f).parsed = s.parsed := rfl
@[simp] theorem State.loadFrame_todo : (s.loadFrame f).todo = s.todo := rfl
@[simp] theorem State.loadFrame_seen : (s.loadFrame f).seen = s.seen := rfl

end

section
variable (l : List HostAction) (s : State)

@[simp] theorem State.withTodo_cfg : (s.withTodo l).cfg = s.cfg := rfl
@[simp] theorem State.withTodo_crc : (s.withTodo l).crc = s.crc := rfl
@[simp] theorem State.withTodo_cmd : (s.withTodo l).cmd = s.cmd := rfl
@[simp] theorem State.withTodo_status : (s.withTodo l).status = s.status := rfl
@[simp] theorem State.withTodo_data : (s.withTodo l).data = s.data := rfl
@[simp] theorem State.withTodo_op : (s.withTodo l).op = s.op := rfl
@[simp] theorem State.withTodo_pin : (s.withTodo l).pin = s.pin := rfl
@[simp] theorem State.withTodo_ilen : (s.withTodo l).ilen = s.ilen := rfl
@[simp] theorem State.withTodo_ecnt : (s.withTodo l).ecnt = s.ecnt := rfl
@[simp] theorem State.withTodo_ibuf : (s.withTodo l).ibuf = s.ibuf := rfl
@[simp] theorem State.withTodo_entPos : (s.withTodo l).entPos = s.entPos := rfl
@[simp] theorem State.withTodo_entLen : (s.withTodo l).entLen = s.entLen := rfl
@[simp] theorem State.withTodo_entVal : (s.withTodo l).entVal = s.entVal := rfl
@[simp] theorem State.withTodo_obuf : (s.withTodo l).obuf = s.obuf := rfl
@[simp] theorem State.withTodo_olen : (s.withTodo l).olen = s.olen := rfl
@[simp] theorem State.withTodo_parsed : (s.withTodo l).parsed = s.parsed := rfl
@[simp] theorem State.withTodo_todo : (s.withTodo l).todo = l := rfl
@[simp] theorem State.withTodo_seen : (s.withTodo l).seen = s.seen := rfl

end

section
variable (v : Nat) (s : State)

@[simp] theorem State.observe_cfg : (s.observe v).cfg = s.cfg := rfl
@[simp] theorem State.observe_crc : (s.observe v).crc = s.crc := rfl
@[simp] theorem State.observe_cmd : (s.observe v).cmd = s.cmd := rfl
@[simp] theorem State.observe_status : (s.observe v).status = s.status := rfl
@[simp] theorem State.observe_data : (s.observe v).data = s.data := rfl
@[simp] theorem State.observe_op : (s.observe v).op = s.op := rfl
@[simp] theorem State.observe_pin : (s.observe v).pin = s.pin := rfl
@[simp] theorem State.observe_ilen : (s.observe v).ilen = s.ilen := rfl
@[simp] theorem State.observe_ecnt : (s.observe v).ecnt = s.ecnt := rfl
@[simp] theorem State.observe_ibuf : (s.observe v).ibuf = s.ibuf := rfl
@[simp] theorem State.observe_entPos : (s.observe v).entPos = s.entPos := rfl
@[simp] theorem State.observe_entLen : (s.observe v).entLen = s.entLen := rfl
@[simp] theorem State.observe_entVal : (s.observe v).entVal = s.entVal := rfl
@[simp] theorem State.observe_obuf : (s.observe v).obuf = s.obuf := rfl
@[simp] theorem State.observe_olen : (s.observe v).olen = s.olen := rfl
@[simp] theorem State.observe_parsed : (s.observe v).parsed = s.parsed := rfl
@[simp] theorem State.observe_todo : (s.observe v).todo = s.todo := rfl
@[simp] theorem State.observe_seen : (s.observe v).seen = v :: s.seen := rfl

end

section
variable (r : Raiser) (k : Failure) (s : State)

@[simp] theorem State.fail_cfg : (s.fail r k).cfg = s.cfg := by cases r <;> rfl
@[simp] theorem State.fail_crc : (s.fail r k).crc = s.crc := by cases r <;> rfl
@[simp] theorem State.fail_cmd : (s.fail r k).cmd = s.cmd := by cases r <;> rfl
@[simp] theorem State.fail_status : (s.fail r k).status = failureCode k := by cases r <;> rfl
@[simp] theorem State.fail_data : (s.fail r k).data = s.data := by cases r <;> rfl
@[simp] theorem State.fail_op : (s.fail r k).op = s.op := by cases r <;> rfl
@[simp] theorem State.fail_pin : (s.fail r k).pin = s.pin := by cases r <;> rfl
@[simp] theorem State.fail_ilen : (s.fail r k).ilen = s.ilen := by cases r <;> rfl
@[simp] theorem State.fail_ecnt : (s.fail r k).ecnt = s.ecnt := by cases r <;> rfl
@[simp] theorem State.fail_ibuf : (s.fail r k).ibuf = s.ibuf := by cases r <;> rfl
@[simp] theorem State.fail_entPos : (s.fail r k).entPos = s.entPos := by cases r <;> rfl
@[simp] theorem State.fail_entLen : (s.fail r k).entLen = s.entLen := by cases r <;> rfl
@[simp] theorem State.fail_entVal : (s.fail r k).entVal = s.entVal := by cases r <;> rfl
@[simp] theorem State.fail_obuf : (s.fail r k).obuf = s.obuf := by cases r <;> rfl
@[simp] theorem State.fail_port_olen : (s.fail .port k).olen = s.olen := rfl
@[simp] theorem State.fail_encoder_olen : (s.fail .encoder k).olen = 0 := rfl
@[simp] theorem State.fail_decoder_olen : (s.fail .decoder k).olen = 0 := rfl
@[simp] theorem State.fail_port_parsed : (s.fail .port k).parsed = s.parsed := rfl
@[simp] theorem State.fail_encoder_parsed : (s.fail .encoder k).parsed = s.parsed := rfl
@[simp] theorem State.fail_decoder_parsed : (s.fail .decoder k).parsed = none := rfl
@[simp] theorem State.fail_todo : (s.fail r k).todo = s.todo := by cases r <;> rfl
@[simp] theorem State.fail_seen : (s.fail r k).seen = s.seen := by cases r <;> rfl

end

section
variable (s : State)

@[simp] theorem State.resetBlock_cfg : s.resetBlock.cfg = s.cfg := rfl
@[simp] theorem State.resetBlock_crc : s.resetBlock.crc = State.reset.crc := rfl
@[simp] theorem State.resetBlock_cmd : s.resetBlock.cmd = State.reset.cmd := rfl
@[simp] theorem State.resetBlock_status : s.resetBlock.status = State.reset.status := rfl
@[simp] theorem State.resetBlock_data : s.resetBlock.data = State.reset.data := rfl
@[simp] theorem State.resetBlock_op : s.resetBlock.op = State.reset.op := rfl
@[simp] theorem State.resetBlock_pin : s.resetBlock.pin = State.reset.pin := rfl
@[simp] theorem State.resetBlock_ilen : s.resetBlock.ilen = State.reset.ilen := rfl
@[simp] theorem State.resetBlock_ecnt : s.resetBlock.ecnt = State.reset.ecnt := rfl
@[simp] theorem State.resetBlock_ibuf : s.resetBlock.ibuf = State.reset.ibuf := rfl
@[simp] theorem State.resetBlock_entPos : s.resetBlock.entPos = State.reset.entPos := rfl
@[simp] theorem State.resetBlock_entLen : s.resetBlock.entLen = State.reset.entLen := rfl
@[simp] theorem State.resetBlock_entVal : s.resetBlock.entVal = State.reset.entVal := rfl
@[simp] theorem State.resetBlock_obuf : s.resetBlock.obuf = State.reset.obuf := rfl
@[simp] theorem State.resetBlock_olen : s.resetBlock.olen = State.reset.olen := rfl
@[simp] theorem State.resetBlock_parsed : s.resetBlock.parsed = State.reset.parsed := rfl
@[simp] theorem State.resetBlock_todo : s.resetBlock.todo = s.todo := rfl
@[simp] theorem State.resetBlock_seen : s.resetBlock.seen = s.seen := rfl

end

end Sys2Proof.Machine
end

