-- ==== Sys2Proof/Laws/Exec.lean ====
section
/-! SUPPORT. What an instruction and a step can do, said once: every next state is one of the named updates. -/

namespace Sys2Proof.Machine

/-- What running the decoder's checks on a state can leave: an accepted response, or one of the three failures. -/
inductive ParseOutcome (s t : State) : Prop where
  | accepted (h : RespHeader) (x : List Byte) (acc : Accepted s.ibuf s.ilen h x) (fits : x.length ≤ s.cfg.obufCap)
      (eq : t = s.putResponse h x)
  | rejected (k : Failure) (kind : isParseFailure k = true) (eq : t = s.fail .decoder k)

theorem deliver_next {s t : State} (h : deliver (parseBuffer s.ibuf s.ilen) s = .next t) : ParseOutcome s t := by
  cases hp : parseBuffer s.ibuf s.ilen with
  | none => simp [hp, deliver] at h
  | some v =>
    rw [hp] at h
    rcases parseBuffer_cases hp with ⟨hd, x, rfl, acc⟩ | ⟨k, rfl, hk⟩
    · simp only [deliver] at h
      split at h <;> simp only [Host.Outcome.next.injEq, reduceCtorEq] at h
      next hf => exact .accepted hd x acc hf h.symm
    · simp only [deliver, Host.Outcome.next.injEq] at h
      exact .rejected k hk h.symm

theorem parseReceived_next {s t : State} {f : List Byte} (h : parseReceived f s = .next t) :
    f.length ≤ s.cfg.ibufCap ∧ ParseOutcome (s.loadFrame f) t := by
  unfold parseReceived at h
  split at h
  · next hf => exact ⟨hf, deliver_next h⟩
  · simp at h

/-- Every next state an instruction can leave. -/
inductive ExecOutcome (i : Instr) (s t : State) : Prop where
  | crc (kind : isCrcCommand i = true) (c : Word) (eq : t = s.putCrc c)
  | built (kind : isEncoderCommand i = true) (op : Byte) (p : List Byte) (fits : frameFits s.cfg p.length = true)
      (eq : t = s.putFrame (frame op s.pin p))
  | notBuilt (kind : isEncoderCommand i = true) (fit : t = s.fail .encoder .frameTooLong)
  | parsed (kind : i = .decParse) (out : ParseOutcome s t)
  | received (kind : isCommand i = false) (fits : (wireBytes i).length ≤ s.cfg.ibufCap)
      (out : ParseOutcome (s.loadFrame (wireBytes i)) t)

theorem exec_next {i : Instr} {s t : State} (h : exec i s = .next t) : ExecOutcome i s t := by
  cases i with
  | crcInit => exact .crc rfl _ (by simpa [exec, execCrcInit] using h.symm)
  | crcByte => exact .crc rfl _ (by simpa [exec, execCrcByte] using h.symm)
  | crcSum =>
    simp only [exec, execCrcSum] at h
    split at h <;> simp only [Host.Outcome.next.injEq, reduceCtorEq] at h
    exact .crc rfl _ h.symm
  | encFrame =>
    simp only [exec, execEncFrame] at h
    split at h
    · next hf =>
      split at h <;> simp only [Host.Outcome.next.injEq, reduceCtorEq] at h
      next p hp => exact .built rfl _ p (by rw [Memory.getAll_length hp]; exact hf) h.symm
    · simp only [Host.Outcome.next.injEq] at h; exact .notBuilt rfl h.symm
  | encRead =>
    simp only [exec, execEncRead] at h
    split at h <;> simp only [Host.Outcome.next.injEq] at h
    · next hf => exact .built rfl _ _ hf h.symm
    · exact .notBuilt rfl h.symm
  | encWrite =>
    simp only [exec, execEncWrite] at h
    cases he : s.entries with
    | none => simp [he] at h
    | some es =>
      obtain ⟨_, hl, ha⟩ := State.entries_ok he
      rw [he] at h
      rcases buildWrite_cases s.cfg s.pin es with ⟨h1, _⟩ | ⟨_, h1, _⟩ | ⟨_, _, _, hb⟩ | ⟨_, _, hf, hb⟩
      · omega
      · simp [ha] at h1
      · simp only [hb, Host.Outcome.next.injEq] at h; exact .notBuilt rfl h.symm
      · simp only [hb, Host.Outcome.next.injEq] at h
        exact .built rfl _ _ (by rw [serPayload_length ha]; exact hf) h.symm
  | decParse => exact .parsed rfl (deliver_next h)
  | readReq len pin payload sum =>
    obtain ⟨hf, ho⟩ := parseReceived_next h
    exact .received rfl hf ho
  | writeReq len pin entries sum =>
    obtain ⟨hf, ho⟩ := parseReceived_next h
    exact .received rfl hf ho
  | readRsp len start count dcb sum =>
    obtain ⟨hf, ho⟩ := parseReceived_next h
    exact .received rfl hf ho

/-- A step with no action left changes nothing. -/
theorem step_idle {s : State} (h : s.todo = []) : step s = .next s := by simp [step, h]

/-- A step runs the next action on the state whose list has moved on. -/
theorem step_cons {s : State} {act : HostAction} {rest : List HostAction} (h : s.todo = act :: rest) :
    step s = hostStep act (s.withTodo rest) := by simp [step, h]

/-- A command word decodes to a command. -/
theorem decode_command_kind {w : Byte} {i : Instr} (h : decode (.command w) = .ok i) : isCommand i = true := by
  simp only [decode, decodeCommand] at h
  split at h <;> simp only [Except.ok.injEq, reduceCtorEq] at h <;> subst h <;> rfl

/-- A received frame decodes to a wire frame. -/
theorem decode_wire_kind {f : List Byte} {i : Instr} (h : decode (.wire f) = .ok i) : isCommand i = false := by
  simp only [decode] at h
  unfold decodeFrame decodeReadReq decodeWriteReq decodeReadRsp at h
  repeat' (split at h)
  all_goals simp only [Except.ok.injEq, reduceCtorEq] at h
  all_goals (subst h; rfl)

/-- Every next state a host action can leave, `s` being the state whose action list has moved on. -/
inductive HostOutcome (s t : State) : HostAction → Prop where
  | data (b : Byte) (eq : t = { s with data := b }) : HostOutcome s t (.writeData b)
  | op (b : Byte) (eq : t = { s with op := b }) : HostOutcome s t (.writeOp b)
  | pin (w : Word) (eq : t = { s with pin := w }) : HostOutcome s t (.writePin w)
  | ilen (n : Nat) (le : n ≤ s.cfg.ibufCap) (eq : t = { s with ilen := n }) : HostOutcome s t (.writeIlen n)
  | ecnt (b : Byte) (eq : t = { s with ecnt := b }) : HostOutcome s t (.writeEcnt b)
  | ibuf (a : Nat) (b : Byte) (lt : a < s.cfg.ibufCap) (eq : t = { s with ibuf := Memory.set s.ibuf a b }) :
    HostOutcome s t (.writeIbuf a b)
  | entPos (j : Nat) (w : Word) (lt : j < Config.entCap) (eq : t = { s with entPos := Memory.set s.entPos j w }) :
    HostOutcome s t (.writeEntPos j w)
  | entLen (j : Nat) (b : Byte) (lt : j < Config.entCap) (eq : t = { s with entLen := Memory.set s.entLen j b }) :
    HostOutcome s t (.writeEntLen j b)
  | entVal (j i : Nat) (b : Byte) (lt : j < Config.entCap) (lt' : i < Config.valCap)
      (eq : t = { s with entVal := Memory.set s.entVal (entValKey j i) b }) : HostOutcome s t (.writeEntVal j i b)
  | command (w : Byte) (i : Instr) (dec : decode (.command w) = .ok i) (out : ExecOutcome i (s.latch w) t) :
    HostOutcome s t (.issue (.command w))
  | undefined (w : Byte) (eq : t = (s.latch w).fail .port .illegalCommand) : HostOutcome s t (.issue (.command w))
  | wire (f : List Byte) (i : Instr) (dec : decode (.wire f) = .ok i) (out : ExecOutcome i s t) :
    HostOutcome s t (.issue (.wire f))
  | other (f : List Byte) (fits : f.length ≤ s.cfg.ibufCap) (out : ParseOutcome (s.loadFrame f) t) :
    HostOutcome s t (.issue (.wire f))
  | readReg (r : HostReg) (v : Nat) (val : readRegister s r = .ok v) (eq : t = s.observe v) : HostOutcome s t (.readReg r)
  | readObuf (a v : Nat) (val : readOutput s a = .ok v) (eq : t = s.observe v) : HostOutcome s t (.readObuf a)
  | reset (eq : t = s.resetBlock) : HostOutcome s t .reset

theorem writeWithin_next {b : Buffer} {inside : Bool} {t t' : State} (h : writeWithin b inside t = .next t') :
    inside = true ∧ t' = t := by
  unfold writeWithin at h
  split at h <;> simp only [Host.Outcome.next.injEq, reduceCtorEq] at h
  next hi => exact ⟨hi, h.symm⟩

theorem finishRead_next {v : Except Fault Nat} {s t : State} (h : finishRead v s = .next t) :
    ∃ n, v = .ok n ∧ t = s.observe n := by
  cases v <;> simp only [finishRead, Host.Outcome.next.injEq, reduceCtorEq] at h
  exact ⟨_, rfl, h.symm⟩

theorem hostStep_next {act : HostAction} {s t : State} (h : hostStep act s = .next t) : HostOutcome s t act := by
  cases act with
  | writeData b => exact .data b (by simpa [hostStep] using h.symm)
  | writeOp b => exact .op b (by simpa [hostStep] using h.symm)
  | writePin w => exact .pin w (by simpa [hostStep] using h.symm)
  | writeEcnt b => exact .ecnt b (by simpa [hostStep] using h.symm)
  | writeIlen n =>
    simp only [hostStep] at h
    split at h <;> simp only [Host.Outcome.next.injEq, reduceCtorEq] at h
    next hn => exact .ilen n hn h.symm
  | writeIbuf a b =>
    obtain ⟨hi, ht⟩ := writeWithin_next h
    exact .ibuf a b (by simpa using hi) ht
  | writeEntPos j w =>
    obtain ⟨hi, ht⟩ := writeWithin_next h
    exact .entPos j w (by simpa using hi) ht
  | writeEntLen j b =>
    obtain ⟨hi, ht⟩ := writeWithin_next h
    exact .entLen j b (by simpa using hi) ht
  | writeEntVal j i b =>
    obtain ⟨hi, ht⟩ := writeWithin_next h
    simp only [Bool.and_eq_true, decide_eq_true_eq] at hi
    exact .entVal j i b hi.1 hi.2 ht
  | issue image =>
    cases image with
    | command w =>
      simp only [hostStep, issue] at h
      split at h
      · next i hd => exact .command w i hd (exec_next h)
      · simp only [Host.Outcome.next.injEq] at h; exact .undefined w h.symm
    | wire f =>
      simp only [hostStep, issue] at h
      split at h
      · next i hd => exact .wire f i hd (exec_next h)
      · obtain ⟨hf, ho⟩ := parseReceived_next h; exact .other f hf ho
  | readReg r => obtain ⟨v, hv, ht⟩ := finishRead_next h; exact .readReg r v hv ht
  | readObuf a => obtain ⟨v, hv, ht⟩ := finishRead_next h; exact .readObuf a v hv ht
  | reset => exact .reset (by simpa [hostStep] using h.symm)

end Sys2Proof.Machine
end

