-- ==== Sys2Proof/Laws/PerInstr.lean ====
section
/-! SUPPORT. A statement per instruction: the shape of its image. A command's word has bits 7 to 3 zero and is not the reserved
0x03 (30_encoding.md R60, R61); a wire frame starts with its row's code and has at least the row's shortest size when its
operands are encodable (R51, R53, R54). -/

namespace Sys2Proof.Laws.ImageShape

open Sys2Proof Sys2Proof.Machine

/-- The image is of the shape its row of the opcode table gives. -/
def Statement (i : Instr) : Prop :=
  match encode i with
  | .command w => w.toNat < 8 ∧ w ≠ 0x03
  | .wire bytes => i.encodable = true → ∃ code size, bytes[0]? = some code ∧ shortestFrame code = some size ∧ size ≤ bytes.length

theorem crcInit : Statement .crcInit := by simp [Statement, encode]

theorem crcByte : Statement .crcByte := by simp [Statement, encode]

theorem crcSum : Statement .crcSum := by simp [Statement, encode]

theorem encFrame : Statement .encFrame := by simp [Statement, encode]

theorem encRead : Statement .encRead := by simp [Statement, encode]

theorem encWrite : Statement .encWrite := by simp [Statement, encode]

theorem decParse : Statement .decParse := by simp [Statement, encode]

theorem readReq (len pin : Word) (payload : List Byte) (sum : Word) : Statement (.readReq len pin payload sum) := by
  intro h
  simp only [Instr.encodable, beq_iff_eq] at h
  exact ⟨opcRead, 11, rfl, rfl, by simp [coveredBytes, le16, h]⟩

theorem writeReq (len pin : Word) (entries : List DcbEntry) (sum : Word) : Statement (.writeReq len pin entries sum) :=
  fun _ => ⟨opcWrite, 8, rfl, rfl, by simp [coveredBytes, le16, serPayload]⟩

theorem readRsp (len start count : Word) (dcb : List Byte) (sum : Word) : Statement (.readRsp len start count dcb sum) :=
  fun _ => ⟨rspReadAck, 9, rfl, rfl, by simp [coveredBytes, le16]⟩

end Sys2Proof.Laws.ImageShape
end

