-- ==== Sys2Proof/Tests/Slice0.lean ====
section
/-! SUPPORT. Tests: the decoder and the well-formedness checks, one or two steps per instruction against the vectors of
95_test_vectors.md, and a witness for the hypotheses of every obligation that has any. -/

namespace Sys2Proof.Tests

open Sys2Proof Sys2Proof.Machine

/-! ### Decoding: words written out from Table 30-5 and the frame layouts -/

theorem test_decode_crcInit : decode (.command 0b00000000) = .ok .crcInit := by decide
theorem test_decode_crcByte : decode (.command 0b00000001) = .ok .crcByte := by decide
theorem test_decode_crcSum : decode (.command 0b00000010) = .ok .crcSum := by decide
theorem test_decode_reserved : decode (.command 0b00000011) = .error (.undefinedCommand 3) := by decide
theorem test_decode_encFrame : decode (.command 0b00000100) = .ok .encFrame := by decide
theorem test_decode_encRead : decode (.command 0b00000101) = .ok .encRead := by decide
theorem test_decode_encWrite : decode (.command 0b00000110) = .ok .encWrite := by decide
theorem test_decode_decParse : decode (.command 0b00000111) = .ok .decParse := by decide
theorem test_decode_bit7 : decode (.command 0b10000000) = .error (.undefinedCommand 0x80) := by decide
/-- The word 0x93 written to CMD is undefined; the frame byte 0x93 is READ_REQ (R61, R63). -/
theorem test_decode_spaces_apart : decode (.command 0x93) = .error (.undefinedCommand 0x93) := by decide

/-- The read request for pin 0 (V-ENC-11). -/
theorem test_decode_readReq :
    decode (.wire [0x93, 0x0B, 0x00, 0x00, 0x00, 0x00, 0x00, 0xFF, 0xFF, 0xDA, 0x12]) =
      .ok (.readReq 0x000B 0x0000 [0x00, 0x00, 0xFF, 0xFF] 0x12DA) := by decide
/-- S4, the frost protection write. -/
theorem test_decode_writeReq :
    decode (.wire [0xA3, 0x0C, 0x00, 0xD2, 0x04, 0x01, 0x17, 0x00, 0x01, 0x01, 0x38, 0xDC]) =
      .ok (.writeReq 0x000C 0x04D2 [⟨0x0017, 1, [0x01]⟩] 0xDC38) := by decide
/-- V-DEC-4. -/
theorem test_decode_readRsp :
    decode (.wire [0x94, 0x0C, 0x00, 0x34, 0x12, 0x03, 0x00, 0x61, 0x62, 0x63, 0x35, 0xF3]) =
      .ok (.readRsp 0x000C 0x1234 0x0003 [0x61, 0x62, 0x63] 0xF335) := by decide
theorem test_decode_unknown_code : decode (.wire [0x95, 0x09, 0x00]) = .error (.unknownFrameCode 0x95) := by decide
theorem test_decode_empty_frame : decode (.wire []) = .error .emptyFrame := by decide
theorem test_decode_short_response : decode (.wire [0x94, 0x03, 0x00]) = .error .shortResponse := by decide
theorem test_decode_short_read_request : decode (.wire [0x93, 0x0B]) = .error .notReadReqSize := by decide
theorem test_decode_entry_layout :
    decode (.wire [0xA3, 0x0C, 0x00, 0xD2, 0x04, 0x01, 0x17, 0x00, 0x02, 0x01, 0x38, 0xDC]) = .error .badEntryLayout := by
  decide

theorem test_table_rows :
    [0x00, 0x01, 0x02, 0x04, 0x05, 0x06, 0x07].map (decodeTableWord 8) =
      [some .crcInit, some .crcByte, some .crcSum, some .encFrame, some .encRead, some .encWrite, some .decParse] := by
  decide
theorem test_table_frame_rows :
    [0x93, 0xA3, 0x94].map (decodeTableWord 8) =
      [some (.readReq 0 0 [0, 0, 0, 0] 0), some (.writeReq 0 0 [] 0), some (.readRsp 0 0 0 [] 0)] := by decide

/-! ### Well-formedness: one ill-formed term per check -/

theorem test_wellFormed_readReq : (Instr.readReq 0x000B 0x04D2 [0x00, 0x00, 0xFF, 0xFF] 0xB428).wellFormed = true := by decide
theorem test_wellFormed_writeReq : (Instr.writeReq 0x000C 0x04D2 [⟨0x0017, 1, [0x01]⟩] 0xDC38).wellFormed = true := by decide
theorem test_wellFormed_readRsp :
    (Instr.readRsp 0x000D 0x0000 0x0004 [0x04, 0x00, 0x01, 0x02] 0x0EC7).wellFormed = true := by decide
theorem test_illFormed_payload_size : (Instr.readReq 0x000A 0x04D2 [0x00, 0xFF, 0xFF] 0).encodable = false := by decide
theorem test_illFormed_entry : (Instr.writeReq 0x000C 0x04D2 [⟨0x0017, 2, [0x01]⟩] 0xDC38).encodable = false := by decide
theorem test_illFormed_length : (Instr.readReq 0x000C 0x04D2 [0x00, 0x00, 0xFF, 0xFF] 0xB428).lengthOk = false := by decide
theorem test_illFormed_checksum : (Instr.readReq 0x000B 0x04D2 [0x00, 0x00, 0xFF, 0xFF] 0x28B4).checksumOk = false := by decide
theorem test_illFormed_payload : (Instr.readReq 0x000B 0x04D2 [0x00, 0x00, 0x00, 0xFF] 0xB428).fixedOk = false := by decide
/-- V-DEC-3: the decoder accepts it, but the frame is not well formed, its byteCount is not its slice's size. -/
theorem test_illFormed_byteCount : (Instr.readRsp 0x000C 0x0010 0x0005 [1, 2, 3] 0xFCA3).fixedOk = false := by decide

/-! ### The checksum (V-NIB, V-CRC, S1) -/

theorem test_nib_4 : nib 0x1234 0x5 = 0x63C4 := by decide
theorem test_nib_5 : nib 0x8000 0x0 = 0x8108 := by decide
theorem test_byte_values : crcByteStep 0x1234 0xFF = 0x1883 ∧ crcByteStep 0xB428 0x28 = 0x6A35 ∧ crcByteStep 0x0000 0x31 = 0x2672 := by
  decide
theorem test_crc16_check_value : crc16 [0x31, 0x32, 0x33, 0x34, 0x35, 0x36, 0x37, 0x38, 0x39] = 0x29B1 := by decide
theorem test_crc16_nibble_order : crc16 [0x01] = 0xF1D1 ∧ crc16 [0x10] = 0xF3C1 ∧ crc16 [0xFF, 0xFF] = 0x0000 := by decide

/-! ### A small state -/

/-- A buffer holding the bytes from address 0. -/
def bufferOf (x : List Byte) : Memory Byte := Memory.setAll [] 0 x

/-- The reset state with a message in IBUF. -/
def withMessage (x : List Byte) : State := { State.reset with ibuf := bufferOf x, ilen := x.length }

/-- The reset state with entries in ENT and the pin of the source's examples. -/
def withEntries (es : List DcbEntry) : State :=
  { State.reset with
    pin := 0x04D2
    ecnt := BitVec.ofNat 8 es.length
    entPos := Memory.setAll [] 0 (es.map DcbEntry.position)
    entLen := Memory.setAll [] 0 (es.map DcbEntry.length)
    entVal := (es.zipIdx.foldl (fun m e => Memory.setAll m (255 * e.2) e.1.value) []) }

/-- What a command delivers on a state: STATUS and the valid bytes of OBUF. -/
def frameOf (o : Result) : Option (Byte × Option (List Byte)) :=
  outcomeView (fun t => (t.status, Memory.getAll t.obuf 0 t.olen)) o

/-- The state of P5 step 4: a response in IBUF that parses. -/
def response : List Byte := [0x94, 0x0D, 0x00, 0xD2, 0x04, 0x04, 0x00, 0x09, 0x08, 0x07, 0x06, 0x47, 0x0C]

/-! ### The CRC unit -/

/-- V-CRC-18. -/
theorem test_crcInit : outcomeView (fun t => (t.crc, t.status)) (exec .crcInit { State.reset with crc := 0x522A, status := 3 }) =
    some (0xFFFF, 0) := by decide
/-- P6 step 2: CRC.BYTE straight after reset. -/
theorem test_crcByte : outcomeView State.crc (exec .crcByte State.reset) = some 0xE1F0 := by decide
/-- V-CRC-17. -/
theorem test_crcSum : outcomeView State.crc (exec .crcSum { withMessage [0x41] with crc := 0x1234 }) = some 0xB915 := by decide
/-- U4: ILEN beyond what the host has written. -/
theorem test_crcSum_unwritten : exec .crcSum { withMessage [0x41] with ilen := 2 } = .refused (.unwrittenOperand .ibuf) := rfl

/-! ### The frame encoder -/

/-- V-ENC-2, the 7-byte minimum. -/
theorem test_encFrame_empty : frameOf (exec .encFrame State.reset) = some (0, some [0x00, 0x07, 0x00, 0x00, 0x00, 0x21, 0x40]) := by
  decide
/-- V-ENC-4: the pin low byte first. -/
theorem test_encFrame_pin : frameOf (exec .encFrame { withMessage [0xAA] with op := 0x93, pin := 0x0100 }) =
    some (0, some [0x93, 0x08, 0x00, 0x00, 0x01, 0xAA, 0xE8, 0x2B]) := by decide
/-- V-ENC-9: OBUF_CAP = 10. -/
theorem test_encFrame_too_long :
    frameOf (exec .encFrame { withMessage [0x00, 0x00, 0xFF, 0xFF] with cfg := ⟨19, 10⟩ }) = some (0x10, some []) := by decide
/-- V-ENC-13. -/
theorem test_encRead : frameOf (exec .encRead { withMessage [1, 2, 3] with pin := 0x04D2, op := 0x7F }) =
    some (0, some [0x93, 0x0B, 0x00, 0xD2, 0x04, 0x00, 0x00, 0xFF, 0xFF, 0x28, 0xB4]) := by decide
/-- S5. -/
theorem test_encWrite : frameOf (exec .encWrite (withEntries [⟨0x0012, 1, [0x14]⟩, ⟨0x0020, 2, [0x1E, 0x00]⟩, ⟨0x0013, 1, [0x17]⟩])) =
    some (0, some [0xA3, 0x15, 0x00, 0xD2, 0x04, 0x03, 0x12, 0x00, 0x01, 0x14, 0x20, 0x00, 0x02, 0x1E, 0x00, 0x13, 0x00, 0x01,
      0x17, 0x6C, 0xC1]) := by decide +kernel
/-- V-ENC-23 and V-ENC-24: no entries, and an entry of LEN 0. -/
theorem test_encWrite_empty :
    frameOf (exec .encWrite (withEntries [])) = some (0, some [0xA3, 0x08, 0x00, 0xD2, 0x04, 0x00, 0xC5, 0xE4]) ∧
    frameOf (exec .encWrite (withEntries [⟨0x0102, 0, []⟩])) =
      some (0, some [0xA3, 0x0B, 0x00, 0xD2, 0x04, 0x01, 0x02, 0x01, 0x00, 0xC0, 0x76]) := by decide
/-- V-ENC-28. -/
theorem test_buildWrite_badEntry : buildWrite Config.default 0x04D2 [⟨0x0012, 2, [0x14]⟩] = .error .badEntry := rfl

/-! ### The frame decoder -/

/-- P4 step 4, V-RT-1. -/
theorem test_decParse : outcomeView (fun t => (t.status, t.parsed, Memory.getAll t.obuf 0 t.olen)) (exec .decParse (withMessage response)) =
    some (0, some ⟨0x94, 0x000D, 0x04D2, 0x0004⟩, some [0x09, 0x08, 0x07, 0x06]) := by decide
/-- V-DEC-3, V-DEC-5, V-DEC-7, V-DEC-11, V-DEC-12 and V-DEC-16: the STATUS codes. -/
theorem test_decParse_status :
    [[0x94, 0x0C, 0x00, 0x10, 0x00, 0x05, 0x00, 0x01, 0x02, 0x03, 0xA3, 0xFC],
      [0x93, 0x0B, 0x00, 0xD2, 0x04, 0x00, 0x00, 0xFF, 0xFF, 0x28, 0xB4], [],
      [0x94, 0x08, 0x00, 0x00, 0x00, 0x00, 0x38, 0xC4],
      [0x94, 0x0D, 0x00, 0x00, 0x00, 0x04, 0x00, 0x04, 0x00, 0x01, 0x02, 0xC7],
      [0x94, 0x0D, 0x00, 0x00, 0x00, 0x04, 0x00, 0x04, 0x00, 0x01, 0x02, 0x0E, 0xC7]].map
        (fun f => outcomeView State.status (exec .decParse (withMessage f))) =
      [some 0, some 1, some 1, some 2, some 2, some 3] := by decide

/-! ### The wire frames -/

/-- V-DEC-5 as a received frame. -/
theorem test_readReq : outcomeView (fun t => (t.status, t.olen, t.ilen, t.cmd))
    (exec (.readReq 0x000B 0x04D2 [0x00, 0x00, 0xFF, 0xFF] 0xB428) State.reset) = some (1, 0, 11, 7) := by decide
/-- V-DEC-6 as a received frame. -/
theorem test_writeReq : outcomeView (fun t => (t.status, t.olen, t.ilen, t.cmd))
    (exec (.writeReq 0x000C 0x04D2 [⟨0x0017, 1, [0x01]⟩] 0xDC38) State.reset) = some (1, 0, 12, 7) := by decide
/-- V-DEC-1 as a received frame. -/
theorem test_readRsp : outcomeView (fun t => (t.status, t.parsed, Memory.getAll t.obuf 0 t.olen))
    (exec (.readRsp 0x000D 0x0000 0x0004 [0x04, 0x00, 0x01, 0x02] 0x0EC7) State.reset) =
      some (0, some ⟨0x94, 0x000D, 0x0000, 0x0004⟩, some [0x04, 0x00, 0x01, 0x02]) := by decide

/-! ### Steps -/

/-- V-ILL-1: an undefined word changes STATUS only. -/
theorem test_undefined_word :
    outcomeView (fun t => (t.status, t.crc, t.olen)) (step ({ State.reset with crc := 0x522A, olen := 11 }.withFetchWord 8 0x03)) =
      some (0x1F, 0x522A, 11) := by decide
theorem test_fetch_command : outcomeView (fun t => (t.cmd, t.crc)) (step (State.reset.withFetchWord 8 0x01)) = some (0x01, 0xE1F0) := by
  decide
theorem test_fetch_frame : outcomeView (fun t => (t.cmd, t.status)) (step (State.reset.withFetchWord 8 0x94)) = some (0x07, 0x02) := by
  decide
theorem test_fetch_every_row :
    [0x00, 0x01, 0x02, 0x04, 0x05, 0x06, 0x07, 0x93, 0xA3, 0x94].all (fun w => goesOn (step (State.reset.withFetchWord 8 w))) = true := by
  decide
theorem test_read_no_value : step { State.reset with todo := [.readReg .rLen] } = .fault (.noValue .rLen) := rfl
theorem test_write_beyond_ent : step { State.reset with todo := [.writeEntPos 255 0] } = .fault (.noSuchAddress .ent) := rfl

/-! ### Witnesses: states that meet the hypotheses of the obligations -/

/-- The reset state with one action to do. -/
def doing (act : HostAction) : State := { State.reset with todo := [act] }

theorem witness_ResetEventRestoresTable : (doing .reset).todo = .reset :: [] := rfl
theorem witness_CrcSumOfMessage : Memory.getAll (withMessage [1, 2]).ibuf 0 (withMessage [1, 2]).ilen = some [1, 2] := by decide
theorem witness_StreamedChecksumEqualsSum :
    ({ State.reset with todo := streamActions [0x93] } : State).todo = streamActions [0x93] ++ [] ∧
    Memory.getAll (withMessage [0x93]).ibuf 0 (withMessage [0x93]).ilen = some [0x93] := by decide
theorem witness_ChecksumDetectsOneByte : (0x00 : Byte) ≠ 0x01 := by decide
theorem witness_CrcChangedOnlyByCrcUnit :
    outcomeView (fun t => decide (t.crc ≠ (doing (.issue (.command 1))).crc)) (step (doing (.issue (.command 1)))) = some true := by
  decide
theorem witness_CodecIgnoresCrc : isCrcCommand .encRead = false := rfl
/-- The states differ in operands of other rows: OP, IBUF and ILEN for ENC.READ, a byte at ILEN for CRC.SUM. -/
theorem witness_ResultsDependOnOperandsOnly :
    sameRowOperands .encRead State.reset { withMessage [1] with op := 7, crc := 0, status := 3 } ∧
    sameRowOperands .crcSum (withMessage [1]) { withMessage [1, 2] with ilen := 1, crc := 0 } :=
  ⟨⟨rfl, rfl⟩, rfl, fun a ha => by
    have h1 : a < 1 := ha
    obtain rfl : a = 0 := by omega
    decide⟩
/-- The failing clause at the smallest failing size for this OBUF_CAP. -/
theorem witness_EncFrameBuildsFrame_tooLong :
    65535 < 5 + ({ withMessage [1] with cfg := ⟨9, 7⟩ } : State).ilen + 2 ∨
    ({ withMessage [1] with cfg := ⟨9, 7⟩ } : State).cfg.obufCap < 5 + ({ withMessage [1] with cfg := ⟨9, 7⟩ } : State).ilen + 2 := by
  decide
/-- The building clause at the largest size for this OBUF_CAP. -/
theorem witness_EncFrameBuildsFrame :
    5 + ({ withMessage [1] with cfg := ⟨9, 8⟩ } : State).ilen + 2 ≤ 65535 ∧
    5 + ({ withMessage [1] with cfg := ⟨9, 8⟩ } : State).ilen + 2 ≤ ({ withMessage [1] with cfg := ⟨9, 8⟩ } : State).cfg.obufCap ∧
    Memory.getAll (withMessage [1]).ibuf 0 (withMessage [1]).ilen = some [1] := by decide
/-- Both clauses at the values where they meet, OBUF_CAP 11 and 10. -/
theorem witness_EncReadBuildsRequest :
    11 ≤ ({ State.reset with cfg := ⟨20, 11⟩ } : State).cfg.obufCap ∧ ({ State.reset with cfg := ⟨19, 10⟩ } : State).cfg.obufCap < 11 := by
  decide
/-- One entry of ENT as the hypotheses ask for it. -/
theorem witness_EncWriteBuildsRequest :
    [(⟨0x0017, 1, [0x01]⟩ : DcbEntry)].length = (withEntries [⟨0x0017, 1, [0x01]⟩]).ecnt.toNat ∧
    (∀ j e, [(⟨0x0017, 1, [0x01]⟩ : DcbEntry)][j]? = some e →
      Memory.get (withEntries [⟨0x0017, 1, [0x01]⟩]).entPos j = some e.position ∧
      Memory.get (withEntries [⟨0x0017, 1, [0x01]⟩]).entLen j = some e.length ∧
      Memory.getAll (withEntries [⟨0x0017, 1, [0x01]⟩]).entVal (255 * j) e.length.toNat = some e.value) ∧
    5 + 5 + 2 ≤ 65535 ∧ 5 + 5 + 2 ≤ (withEntries [⟨0x0017, 1, [0x01]⟩]).cfg.obufCap := by
  refine ⟨by decide, fun j e h => ?_, by decide, by decide⟩
  cases j with
  | zero => simp only [List.getElem?_cons_zero, Option.some.injEq] at h; subst h; decide
  | succ j => simp at h
/-- The failing clause of ENC.WRITE: the empty write needs 8 bytes. -/
theorem witness_EncWriteBuildsRequest_tooLong :
    65535 < 5 + 1 + 2 ∨ ({ withEntries [] with cfg := ⟨16, 7⟩ } : State).cfg.obufCap < 5 + 1 + 2 := by decide
theorem witness_WriteRefusalsInOrder :
    255 < (List.replicate 256 (⟨0, 1, []⟩ : DcbEntry)).length ∧ [(⟨0, 1, []⟩ : DcbEntry)].length ≤ 255 ∧
    (∃ e ∈ [(⟨0, 1, []⟩ : DcbEntry)], e.value.length ≠ e.length.toNat) ∧
    (∀ e ∈ [(⟨0, 1, [7]⟩ : DcbEntry)], e.value.length = e.length.toNat) ∧
    (Config.mk 9 11).obufCap < 8 + ([(⟨0, 1, [7]⟩ : DcbEntry)].map fun e => 3 + e.length.toNat).sum := by
  exact ⟨by rw [List.length_replicate]; omega, by decide, by decide, by decide, by decide⟩
theorem witness_EmittedFramesMeetInvariants :
    isEncoderCommand .encRead = true ∧ outcomeView State.status (exec .encRead State.reset) = some 0 ∧
    outcomeView State.status (exec .encWrite (withEntries [⟨0x0017, 1, [0x01]⟩])) = some 0 := by decide
/-- A failing encoder command goes on too. -/
theorem witness_EncoderFrame :
    isEncoderCommand .encRead = true ∧
    outcomeView State.status (exec .encRead { State.reset with cfg := ⟨19, 10⟩ }) = some 0x10 := by decide
theorem witness_PseudoInstructionsExpand :
    ({ withMessage [0x00, 0x00, 0xFF, 0xFF] with op := 0x93 } : State).pin = State.reset.pin ∧
    Memory.getAll (withMessage [0x00, 0x00, 0xFF, 0xFF]).ibuf 0 (withMessage [0x00, 0x00, 0xFF, 0xFF]).ilen =
      some [0x00, 0x00, 0xFF, 0xFF] ∧
    (withEntries [⟨0x0017, 1, [0x01]⟩]).entries = some [⟨0x0017, 1, [0x01]⟩] ∧
    Memory.getAll (withMessage [0x01, 0x17, 0x00, 0x01, 0x01]).ibuf 0 (withMessage [0x01, 0x17, 0x00, 0x01, 0x01]).ilen =
      some ((withEntries [⟨0x0017, 1, [0x01]⟩]).ecnt ::
        [(⟨0x0017, 1, [0x01]⟩ : DcbEntry)].flatMap fun e => le16 e.position ++ [e.length] ++ e.value) := by decide
/-- The four clauses of DEC.PARSE: V-DEC-5, V-DEC-11, V-DEC-16, and the smallest accepted frame V-DEC-2. -/
theorem witness_DecParseChecksInOrder :
    ([0x93, 0x0B, 0x00, 0xD2, 0x04, 0x00, 0x00, 0xFF, 0xFF, 0x28, 0xB4] : List Byte)[0]? ≠ some 0x94 ∧
    ((withMessage [0x94, 0x08, 0x00, 0x00, 0x00, 0x00, 0x38, 0xC4]).ilen < 9) ∧
    crc16 (response.take 11) ≠ 0x470C ∧ rd16 (response.take 11 ++ [0x0C, 0x47]) 11 = some 0x470C ∧
    (withMessage [0x94, 0x09, 0x00, 0x00, 0x00, 0x00, 0x00, 0x68, 0xE4]).cfg.ok = true ∧
    rd16 [0x94, 0x09, 0x00, 0x00, 0x00, 0x00, 0x00, 0x68, 0xE4] 1 = some 9 ∧
    rd16 [0x94, 0x09, 0x00, 0x00, 0x00, 0x00, 0x00, 0x68, 0xE4] 7 =
      some (crc16 ([0x94, 0x09, 0x00, 0x00, 0x00, 0x00, 0x00, 0x68, 0xE4].take 7)) := by decide
/-- The three clauses at ILEN 0, 2 and 8. -/
theorem witness_ShortFramesRejected :
    (withMessage []).ilen = 0 ∧ (withMessage [0x94, 0x02]).ilen = 2 ∧ Memory.get (withMessage [0x94, 0x02]).ibuf 0 = some 0x94 ∧
    (withMessage [0x94, 0x08, 0x00, 0x00, 0x00, 0x00, 0x38, 0xC4]).ilen = 8 ∧
    Memory.get16 (withMessage [0x94, 0x08, 0x00, 0x00, 0x00, 0x00, 0x38, 0xC4]).ibuf 1 = some (BitVec.ofNat 16 8) := by decide
theorem witness_DecParseFrame :
    outcomeView State.status (exec .decParse (withMessage response)) = some 0 ∧
    outcomeView State.status (exec .decParse (withMessage [0x95])) = some 1 := by decide
/-- V-RT-2, the shortest payload that parses back, built by ENC.FRAME and put into IBUF; with V-RT-4 and V-RT-6 for the others. -/
theorem witness_BuildThenParseRoundTrip :
    frameOf (exec .encFrame { withMessage [0x00, 0x00] with op := 0x94, pin := 0xFFFF }) =
      some (0, Memory.getAll (withMessage [0x94, 0x09, 0x00, 0xFF, 0xFF, 0x00, 0x00, 0xA8, 0x60]).ibuf 0 9) ∧
    frameOf (exec .encFrame { withMessage [0x01] with op := 0x94, pin := 0x0007 }) =
      some (0, Memory.getAll (withMessage [0x94, 0x08, 0x00, 0x07, 0x00, 0x01, 0x89, 0x51]).ibuf 0 8) ∧
    frameOf (exec .encFrame { withMessage [0x00, 0x00, 0xFF, 0xFF] with op := 0x93, pin := 0x04D2 }) =
      some (0, Memory.getAll (withMessage [0x93, 0x0B, 0x00, 0xD2, 0x04, 0x00, 0x00, 0xFF, 0xFF, 0x28, 0xB4]).ibuf 0 11) := by
  decide
/-- Offsets 0, 2 and 3 of an accepted frame, where the three kinds meet. -/
theorem witness_MutatedFrameRejected :
    outcomeView State.status (exec .decParse (withMessage response)) = some 0 ∧ 3 < (withMessage response).ilen ∧
    [0, 1, 2, 3, 12].map (Memory.get (withMessage response).ibuf) = [some 0x94, some 0x0D, some 0x00, some 0xD2, some 0x0C] := by
  decide
theorem witness_ResponseRegistersFollowParse :
    outcomeView State.status (step { withMessage response with todo := [.issue (.command 0x07)] }) = some 0 ∧
    outcomeView State.status (step (doing (.issue (.wire [])))) = some 1 ∧ goesOn (step (doing .reset)) = true ∧
    outcomeView State.parsed (step (doing (.issue (.command 0x00)))) = some none ∧
    (doing (.readReg .rCode)).parsed = none := by decide
theorem witness_ReadRequestFrameRejected :
    ([0x93] ++ le16 0x000B ++ le16 0x04D2 ++ [0x00, 0x00, 0xFF, 0xFF] ++ le16 0xB428).length ≤ State.reset.cfg.ibufCap := by decide
theorem witness_WriteRequestFrameRejected :
    ([0xA3] ++ le16 0x0008 ++ le16 0x04D2 ++ [0x00] ++ le16 0xE4C5).length ≤ State.reset.cfg.ibufCap := by decide
theorem witness_ReadResponseFrameAccepted :
    State.reset.cfg.ok = true ∧
    (0x0009 : Word).toNat = ([0x94] ++ le16 0x0009 ++ le16 0 ++ le16 0 ++ ([] : List Byte) ++ le16 0xE468).length ∧
    (0xE468 : Word) = crc16 ([0x94] ++ le16 0x0009 ++ le16 0 ++ le16 0 ++ ([] : List Byte)) := by decide
theorem witness_ReadResponseFrameRejected :
    (0x000A : Word).toNat ≠ ([0x94] ++ le16 0x000A ++ le16 0 ++ le16 0 ++ ([] : List Byte) ++ le16 0).length ∧
    (0x68E4 : Word) ≠ crc16 ([0x94] ++ le16 0x0009 ++ le16 0 ++ le16 0 ++ ([] : List Byte)) := by decide
/-- Both clauses, where they meet: a frame of IBUF_CAP bytes and one byte more. -/
theorem witness_ReceivedFrameRunsDecParse :
    [0x95, 0x00].length ≤ ({ State.reset with cfg := ⟨2, 2⟩ } : State).cfg.ibufCap ∧
    ({ State.reset with cfg := ⟨2, 2⟩ } : State).cfg.ibufCap < [0x95, 0x00, 0x00].length := by decide
theorem witness_DecodeOfEncode : (Instr.writeReq 0 0 [⟨0x0102, 0, []⟩] 0).encodable = true := by decide
theorem witness_EncodeOfDecode : decode (.wire [0x94, 0, 0, 1, 2, 3, 4, 5, 6]) = .ok (.readRsp 0 0x0201 0x0403 [] 0x0605) := by decide
theorem witness_CommandWordsDecode : (0x08 : Byte) = 0x03 ∨ 8 ≤ (0x08 : Byte).toNat := by decide
theorem witness_FieldsLittleEndian : ([0xD2, 0x04] : List Byte)[0]? = some 0xD2 ∧ ([0xD2, 0x04] : List Byte)[0 + 1]? = some 0x04 := by decide
theorem witness_StepRunsDecodedInstruction :
    (doing (.issue (.command 0x07))).todo = .issue (.command 0x07) :: [] ∧ decode (.command 0x07) = .ok .decParse ∧
    (doing (.issue (.wire response))).todo = .issue (.wire response) :: [] ∧
    decode (.wire response) = .ok (.readRsp 0x000D 0x04D2 0x0004 [0x09, 0x08, 0x07, 0x06] 0x0C47) := by decide
theorem witness_UndefinedCommandWord : (doing (.issue (.command 0x08))).todo = .issue (.command 0x08) :: [] ∧ 8 ≤ (0x08 : Byte).toNat := by
  decide
/-- ILEN at IBUF_CAP and one beyond it. -/
theorem witness_HostRegisterWrites :
    (doing (.writeIlen 65535)).todo = .writeIlen 65535 :: [] ∧ 65535 ≤ (doing (.writeIlen 65535)).cfg.ibufCap ∧
    (doing (.writeIlen 65536)).cfg.ibufCap < 65536 ∧ (doing (.writePin 0x04D2)).todo = .writePin 0x04D2 :: [] := by decide
/-- The last address of each space and the first beyond it. -/
theorem witness_HostBufferWrites :
    65534 < (doing (.writeIbuf 65534 1)).cfg.ibufCap ∧ (doing (.writeIbuf 65535 1)).cfg.ibufCap ≤ 65535 ∧
    (doing (.writeEntVal 254 254 1)).todo = .writeEntVal 254 254 1 :: [] ∧
    (doing (.writeEntVal 254 255 1)).todo = .writeEntVal 254 255 1 :: [] := by decide
theorem witness_LineCrcSumChecksums :
    [0x41].length ≤ State.reset.cfg.ibufCap ∧
    ({ State.reset with todo := lineActions (.crcSum [0x41]) } : State).todo = lineActions (.crcSum [0x41]) ++ [] := by decide
theorem witness_LineEncWriteBuilds :
    (∀ e ∈ [(⟨0x0017, 1, [0x01]⟩ : DcbEntry)], e.value.length = e.length.toNat) ∧
    8 + ([(⟨0x0017, 1, [0x01]⟩ : DcbEntry)].map fun e => 3 + e.length.toNat).sum ≤ State.reset.cfg.obufCap ∧
    lineActions (.encWrite 0x04D2 [⟨0x0017, 1, [0x01]⟩]) =
      [.writePin 0x04D2, .writeEntPos 0 0x0017, .writeEntLen 0 1, .writeEntVal 0 0 0x01, .writeEcnt 1, .issue (.command 0x06)] := by
  decide
theorem witness_LineDecParseIsReceivedFrame :
    response.length ≤ State.reset.cfg.ibufCap ∧
    ({ State.reset with todo := lineActions (.decParse response) } : State).todo = lineActions (.decParse response) ++ [] := by decide
theorem witness_HostReadsChangeNothing :
    outcomeView State.seen (step (doing (.readReg .crc))) = some [0xFFFF] ∧
    outcomeView State.seen (step { State.reset with obuf := bufferOf [7], olen := 1, todo := [.readObuf 0] }) = some [7] := by decide
/-- The last valid byte of OBUF and the first beyond it. -/
theorem witness_HostReadsWithoutNumber :
    ({ State.reset with obuf := bufferOf [7, 8], olen := 2 } : State).olen ≤ 2 ∧
    1 < ({ State.reset with obuf := bufferOf [7, 8], olen := 2 } : State).olen ∧
    ({ State.reset with obuf := bufferOf [7, 8], olen := 2 } : State).Inv ∧
    (doing (.readReg .status)).parsed = none ∧ HostReg.status ≠ .rCount ∧
    HostReg.rLen ≠ .cmd ∧ (some (⟨0x94, 9, 0, 0⟩ : RespHeader)).isSome = true :=
  ⟨by decide, by decide,
    ⟨by decide, by decide, by decide, by decide, by decide, by decide, by decide, by decide, by decide, by decide, by decide,
      by decide, by decide, by decide, by decide, fun h hh => by simp [State.reset] at hh⟩,
    rfl, by decide, by decide, rfl⟩
theorem witness_FinalStateStays : State.reset.todo = [] := rfl
theorem witness_UnwrittenOperandRefused :
    (0 < ({ State.reset with ilen := 1 } : State).ilen ∧ Memory.get ({ State.reset with ilen := 1 } : State).ibuf 0 = none ∧
      ({ State.reset with ilen := 1 } : State).ilen + 7 ≤ 65535) ∧
    outcomeView State.status (exec .decParse { withMessage [0x95] with ilen := 2 }) = some 1 ∧
    Memory.get ({ withMessage [0x94] with ilen := 3 } : State).ibuf 1 = none ∧
    (Memory.get ({ withMessage [0x94, 0x09, 0x00] with ilen := 9 } : State).ibuf 8 = none ∧
      (0x09 : Byte).toNat + 256 * (0x00 : Byte).toNat = 9) ∧
    (0 < ({ State.reset with ecnt := 1 } : State).ecnt.toNat ∧ Memory.get ({ State.reset with ecnt := 1 } : State).entPos 0 = none) := by
  decide
theorem witness_StatusCodesByCommand :
    outcomeView State.status (exec .crcInit State.reset) = some 0 ∧ outcomeView State.status (exec .encWrite State.reset) = some 0 ∧
    outcomeView State.status (exec .decParse State.reset) = some 1 ∧
    decode (.command 0x03) = .error (.undefinedCommand 0x03) := by decide
theorem witness_FailureWritesNothingElse :
    isCommand .decParse = true ∧ outcomeView State.status (exec .decParse State.reset) = some 1 ∧
    decode (.command 0x03) = .error (.undefinedCommand 0x03) ∧ goesOn (step (doing (.issue (.command 0x03)))) = true := by decide
theorem witness_CrcNeverFails :
    outcomeView State.status (exec .crcSum State.reset) = some 0 ∧
    outcomeView State.status (exec .encRead { State.reset with cfg := ⟨19, 10⟩ }) = some 0x10 := by decide
theorem witness_FailureNotSticky : isCommand .crcByte = true := rfl
theorem witness_CommandsKeepOperands : isCommand .crcSum = true ∧ goesOn (exec .crcSum State.reset) = true := by decide
theorem witness_InvariantKeptByStep : State.reset.Inv ∧ goesOn (step State.reset) = true :=
  ⟨⟨by decide, by decide, by decide, by decide, by decide, by decide, by decide, by decide, by decide, by decide, by decide,
      by decide, by decide, by decide, by decide, fun h hh => by simp [State.reset] at hh⟩, by decide⟩
theorem witness_NoCommandFaults : State.reset.Inv ∧ isCommand .decParse = true :=
  ⟨witness_InvariantKeptByStep.1, rfl⟩
/-- A command and a received frame that both write, in the smallest instance that holds them. -/
theorem witness_WritesStayInBuffers :
    outcomeView (fun t => (Memory.get t.obuf 10, t.olen)) (exec .encRead { State.reset with cfg := ⟨9, 11⟩ }) = some (some 0x12, 11) ∧
    outcomeView (fun t => (Memory.get t.ibuf 8, t.ilen)) (exec (.readRsp 9 0 0 [] 0xE468) { State.reset with cfg := ⟨9, 0⟩ }) =
      some (some 0xE4, 9) := by decide
/-- The first element beyond each valid length: IBUF[ILEN], entry ECNT, VAL[LEN] of entry 0. -/
theorem witness_NothingBeyondValidLengthRead :
    isCommand .encWrite = true ∧ (withMessage [1]).ilen ≤ 1 ∧ (withEntries [⟨0x0017, 1, [0x01]⟩]).ecnt.toNat ≤ 1 ∧
    Memory.get (withEntries [⟨0x0017, 1, [0x01]⟩]).entLen 0 = some 1 ∧ (1 : Byte).toNat ≤ 1 := by decide
theorem witness_ReceivedFrameCompletes :
    isCommand (.readRsp 9 0 0 [] 0xE468) = false ∧ State.reset.cfg.ok = true ∧
    (wireBytes (.readRsp 9 0 0 [] 0xE468)).length ≤ State.reset.cfg.ibufCap := by decide

end Sys2Proof.Tests
end

/-! PROOFS of the family 10_state: what every step keeps, which operands an instruction's outcome depends on, what it leaves
unchanged, and where it is refused. -/

namespace Sys2Proof.Machine

/-! ### Failure codes and the classes of instructions -/

/-- No failure's code is that of OK (10_state.md Table 10-2). -/
theorem failureCode_ne_ok (k : Failure) : failureCode k ≠ 0x00 := by cases k <;> decide

/-- Every failure's code is one of Table 10-2. -/
theorem statusLegal_failureCode (k : Failure) : statusLegal (failureCode k) = true := by cases k <;> rfl

theorem not_crc_of_encoder {i : Instr} (h : isEncoderCommand i = true) : isCrcCommand i = false := by
  cases i <;> simp_all [isCrcCommand, isEncoderCommand]

theorem not_decoder_of_encoder {i : Instr} (h : isEncoderCommand i = true) : isDecoderInstr i = false := by
  cases i <;> simp_all [isDecoderInstr, isEncoderCommand]

theorem not_crc_of_decoder {i : Instr} (h : isDecoderInstr i = true) : isCrcCommand i = false := by
  cases i <;> simp_all [isDecoderInstr, isCrcCommand]

theorem not_decoder_of_crc {i : Instr} (h : isCrcCommand i = true) : isDecoderInstr i = false := by
  cases i <;> simp_all [isDecoderInstr, isCrcCommand]

theorem decoder_of_not_command {i : Instr} (h : isCommand i = false) : isDecoderInstr i = true := by
  cases i <;> simp_all [isDecoderInstr, isCommand]

/-- A defined command word is the word of the instruction it decodes to (30_encoding.md R60). -/
theorem encode_of_decode_command {w : Byte} {i : Instr} (h : decode (.command w) = .ok i) : encode i = .command w := by
  simp only [decode, decodeCommand] at h
  split at h <;> simp only [Except.ok.injEq, reduceCtorEq] at h
  all_goals
    subst h
    exact congrArg Image.command (BitVec.eq_of_toNat_eq (by simp [*]))

/-- The words of the CRC commands. -/
theorem crc_command_word {w : Byte} {i : Instr} (hd : decode (.command w) = .ok i) (hi : isCrcCommand i = true) :
    w = 0x00 ∨ w = 0x01 ∨ w = 0x02 := by
  have he := encode_of_decode_command hd
  cases i <;> simp_all [isCrcCommand, encode]

/-! ### What the named updates leave as it was -/

theorem sameInputs_putCrc (c : Word) (s : State) : sameInputs s (s.putCrc c) := by
  simp [sameInputs, sameOperands]

theorem sameInputs_putFrame (f : List Byte) (s : State) : sameInputs s (s.putFrame f) := by
  simp [sameInputs, sameOperands]

theorem sameInputs_putResponse (h : RespHeader) (x : List Byte) (s : State) : sameInputs s (s.putResponse h x) := by
  simp [sameInputs, sameOperands]

theorem sameInputs_fail (r : Raiser) (k : Failure) (s : State) : sameInputs s (s.fail r k) := by
  simp [sameInputs, sameOperands]

/-- OBUF at and beyond the new OLEN reads as before an encoder command put its frame there. -/
theorem get_putFrame_beyond (f : List Byte) (s : State) {a : Nat} (ha : (s.putFrame f).olen ≤ a) :
    Memory.get (s.putFrame f).obuf a = Memory.get s.obuf a := by
  rw [State.putFrame_olen] at ha
  rw [State.putFrame_obuf, Memory.get_setAll, if_neg (by omega)]

/-! ### Next states, by the instruction's class -/

/-- A parse writes STATUS, OBUF, OLEN and the R_ registers only. -/
theorem ParseOutcome.keeps {s t : State} (h : ParseOutcome s t) : sameInputs s t ∧ t.crc = s.crc := by
  cases h with
  | accepted hd x _ _ eq => subst eq; exact ⟨sameInputs_putResponse hd x s, rfl⟩
  | rejected k _ eq => subst eq; exact ⟨sameInputs_fail .decoder k s, State.fail_crc _ _ _⟩

/-- After a parse the R_ registers hold values exactly if it was accepted (10_state.md R15). -/
theorem ParseOutcome.parsed_iff {s t : State} (h : ParseOutcome s t) : t.parsed.isSome = true ↔ t.status = 0x00 := by
  cases h with
  | accepted hd x _ _ eq => subst eq; simp [statusOk]
  | rejected k _ eq => subst eq; simpa using failureCode_ne_ok k

/-- The codes a parse can leave (10_state.md Table 10-2). -/
theorem ParseOutcome.status_cases {s t : State} (h : ParseOutcome s t) :
    t.status = 0x00 ∨ t.status = 0x01 ∨ t.status = 0x02 ∨ t.status = 0x03 := by
  cases h with
  | accepted hd x _ _ eq => subst eq; exact .inl rfl
  | rejected k kind eq =>
    subst eq
    rw [State.fail_status]
    cases k <;> simp [isParseFailure, failureCode] at kind ⊢

/-- A next state of a CRC command differs in `crc` and STATUS. -/
theorem ExecOutcome.of_crc {i : Instr} {s t : State} (hi : isCrcCommand i = true) (h : ExecOutcome i s t) :
    ∃ c, t = s.putCrc c := by
  cases h with
  | crc _ c eq => exact ⟨c, eq⟩
  | built kind | notBuilt kind => simp [not_crc_of_encoder kind] at hi
  | parsed kind => simp [kind, isCrcCommand] at hi
  | received kind => simp [not_crc_of_decoder (decoder_of_not_command kind)] at hi

/-- A next state of an encoder command: a frame stands in OBUF, or FrameTooLong. -/
theorem ExecOutcome.of_encoder {i : Instr} {s t : State} (hi : isEncoderCommand i = true) (h : ExecOutcome i s t) :
    (∃ f, t = s.putFrame f) ∨ t = s.fail .encoder .frameTooLong := by
  cases h with
  | crc kind => simp [not_crc_of_encoder hi] at kind
  | built _ op p _ eq => exact .inl ⟨_, eq⟩
  | notBuilt _ eq => exact .inr eq
  | parsed kind => simp [kind, isEncoderCommand] at hi
  | received kind => exact absurd (decoder_of_not_command kind) (by simp [not_decoder_of_encoder hi])

/-- A next state of an instruction that runs the decoder: the outcome of a parse, for a wire frame of the loaded one (log 6). -/
theorem ExecOutcome.of_decoder {i : Instr} {s t : State} (hi : isDecoderInstr i = true) (h : ExecOutcome i s t) :
    ∃ u, u.crc = s.crc ∧ ParseOutcome u t := by
  cases h with
  | crc kind => simp [not_crc_of_decoder hi] at kind
  | built kind | notBuilt kind => simp [not_decoder_of_encoder kind] at hi
  | parsed _ out => exact ⟨s, rfl, out⟩
  | received _ _ out => exact ⟨_, State.loadFrame_crc _ _, out⟩

/-- Only the CRC commands write `crc` (10_state.md R12). -/
theorem ExecOutcome.crc_kept {i : Instr} {s t : State} (hi : isCrcCommand i = false) (h : ExecOutcome i s t) :
    t.crc = s.crc := by
  cases h with
  | crc kind => simp [hi] at kind
  | built _ op p _ eq => subst eq; rfl
  | notBuilt _ eq => subst eq; rfl
  | parsed _ out => exact out.keeps.2
  | received _ _ out => exact out.keeps.2

/-- A command writes no operand (10_state.md Table 10-1). -/
theorem ExecOutcome.inputs_kept {i : Instr} {s t : State} (hi : isCommand i = true) (h : ExecOutcome i s t) :
    sameInputs s t := by
  cases h with
  | crc _ c eq => subst eq; exact sameInputs_putCrc c s
  | built _ op p _ eq => subst eq; exact sameInputs_putFrame _ s
  | notBuilt _ eq => subst eq; exact sameInputs_fail _ _ s
  | parsed _ out => exact out.keeps.1
  | received kind => simp [hi] at kind

/-- Of the commands only DEC.PARSE writes the R_ registers (10_state.md R15). -/
theorem ExecOutcome.parsed_kept {i : Instr} {s t : State} (hc : isCommand i = true) (hi : i ≠ .decParse)
    (h : ExecOutcome i s t) : t.parsed = s.parsed := by
  cases h with
  | crc _ c eq => subst eq; rfl
  | built _ op p _ eq => subst eq; rfl
  | notBuilt _ eq => subst eq; rfl
  | parsed kind => exact absurd kind hi
  | received kind => simp [hc] at kind

/-! ### The invariant: each named update keeps it -/

section Invariant
variable {s : State}

theorem State.Inv.withTodo (h : s.Inv) (l : List HostAction) : (s.withTodo l).Inv := { h with }

theorem State.Inv.latch (h : s.Inv) (w : Byte) : (s.latch w).Inv := { h with }

theorem State.Inv.observe (h : s.Inv) (v : Nat) : (s.observe v).Inv := { h with }

theorem State.Inv.putCrc (h : s.Inv) (c : Word) : (s.putCrc c).Inv := { h with status := rfl }

theorem State.Inv.putFrame (h : s.Inv) {f : List Byte} (hf : f.length ≤ s.cfg.obufCap) : (s.putFrame f).Inv :=
  { h with
    obufWf := Memory.wf_setAll h.obufWf 0 f
    obufIn := Memory.within_setAll h.obufIn (by omega)
    olenIn := hf
    outputHeld := by simp [Memory.getAll_setAll]
    status := rfl }

theorem State.Inv.putResponse (h : s.Inv) {hd : RespHeader} {x : List Byte} (hx : x.length ≤ s.cfg.obufCap)
    (hcode : hd.code = rspReadAck) (hlen : 9 ≤ hd.len.toNat) : (s.putResponse hd x).Inv :=
  { h with
    obufWf := Memory.wf_setAll h.obufWf 0 x
    obufIn := Memory.within_setAll h.obufIn (by omega)
    olenIn := hx
    outputHeld := by simp [Memory.getAll_setAll]
    status := rfl
    parsed := fun hd' heq => by
      obtain rfl : hd = hd' := Option.some.inj heq
      exact ⟨hcode, hlen⟩ }

theorem State.Inv.fail (h : s.Inv) (r : Raiser) (k : Failure) : (s.fail r k).Inv := by
  have hk := statusLegal_failureCode k
  cases r with
  | port => exact { h with status := hk }
  | encoder => exact { h with status := hk, olenIn := Nat.zero_le _, outputHeld := rfl }
  | decoder =>
    exact { h with status := hk, olenIn := Nat.zero_le _, outputHeld := rfl, parsed := fun _ heq => nomatch heq }

theorem State.Inv.loadFrame (h : s.Inv) {f : List Byte} (hf : f.length ≤ s.cfg.ibufCap) : (s.loadFrame f).Inv :=
  { h with
    ibufWf := Memory.wf_setAll h.ibufWf 0 f
    ibufIn := Memory.within_setAll h.ibufIn (by omega)
    ilenIn := hf }

/-- The reset event empties every buffer and keeps the parameters, so their constraint is all it needs. -/
theorem State.Inv.resetBlock (h : s.Inv) : s.resetBlock.Inv where
  cfg := h.cfg
  ibufWf := rfl
  obufWf := rfl
  entPosWf := rfl
  entLenWf := rfl
  entValWf := rfl
  ibufIn := rfl
  obufIn := rfl
  entPosIn := rfl
  entLenIn := rfl
  entValIn := rfl
  ilenIn := Nat.zero_le _
  olenIn := Nat.zero_le _
  outputHeld := rfl
  status := rfl
  parsed _ heq := nomatch heq

theorem ParseOutcome.inv {t : State} (h : s.Inv) (out : ParseOutcome s t) : t.Inv := by
  cases out with
  | accepted hd x acc fits eq =>
    subst eq
    exact h.putResponse fits acc.code.2 (acc.len.2 ▸ acc.long)
  | rejected k _ eq => subst eq; exact h.fail .decoder k

theorem ExecOutcome.inv {i : Instr} {t : State} (h : s.Inv) (out : ExecOutcome i s t) : t.Inv := by
  cases out with
  | crc _ c eq => subst eq; exact h.putCrc c
  | built _ op p fits eq =>
    subst eq
    exact h.putFrame (by rw [frame_length]; exact ((frameFits_iff _ _).mp fits).2)
  | notBuilt _ eq => subst eq; exact h.fail .encoder .frameTooLong
  | parsed _ out => exact out.inv h
  | received _ fits out => exact out.inv (h.loadFrame fits)

/-- Every host action keeps the invariant: the writes by the address test, the commands by what they leave. -/
theorem HostOutcome.inv {act : HostAction} {t : State} (h : s.Inv) (out : HostOutcome s t act) : t.Inv := by
  cases out with
  | data b eq | op b eq | pin w eq | ecnt b eq => subst eq; exact { h with }
  | ilen n le eq => subst eq; exact { h with ilenIn := le }
  | ibuf a b lt eq =>
    subst eq
    exact { h with ibufWf := Memory.wf_set h.ibufWf a b, ibufIn := Memory.within_set h.ibufIn lt b }
  | entPos j w lt eq =>
    subst eq
    exact { h with entPosWf := Memory.wf_set h.entPosWf j w, entPosIn := Memory.within_set h.entPosIn lt w }
  | entLen j b lt eq =>
    subst eq
    exact { h with entLenWf := Memory.wf_set h.entLenWf j b, entLenIn := Memory.within_set h.entLenIn lt b }
  | entVal j i b lt lt' eq =>
    subst eq
    have hkey : entValKey j i < Config.entCap * Config.valCap := by
      simp only [entValKey, Config.entCap, Config.valCap] at lt lt' ⊢; omega
    exact { h with entValWf := Memory.wf_set h.entValWf _ b, entValIn := Memory.within_set h.entValIn hkey b }
  | command w i _ out => exact out.inv (h.latch w)
  | undefined w eq => subst eq; exact (h.latch w).fail .port .illegalCommand
  | wire f i _ out => exact out.inv h
  | other f fits out => exact out.inv (h.loadFrame fits)
  | readReg r v _ eq => subst eq; exact h.observe v
  | readObuf a v _ eq => subst eq; exact h.observe v
  | reset eq => subst eq; exact h.resetBlock

end Invariant

/-- Settles O53: every host outcome keeps the invariant, and a step with nothing to do stays. -/
theorem invariantKeptByStep : Obligations.InvariantKeptByStep := by
  intro s t hinv hstep
  cases htodo : s.todo with
  | nil =>
    rw [step_idle htodo] at hstep
    cases hstep
    exact hinv
  | cons act rest =>
    rw [step_cons htodo] at hstep
    exact (hostStep_next hstep).inv (hinv.withTodo rest)

/-! ### Two runs on the same operands end alike -/

/-- The state an instruction's results land in: a wire frame is loaded first (log 6). -/
def State.received (i : Instr) (s : State) : State :=
  match isCommand i with
  | true => s
  | false => s.loadFrame (wireBytes i)

theorem State.received_command {i : Instr} (hi : isCommand i = true) (s : State) : s.received i = s := by
  simp only [State.received, hi]

theorem State.received_wire {i : Instr} (hi : isCommand i = false) (s : State) :
    s.received i = s.loadFrame (wireBytes i) := by
  simp only [State.received, hi]

/-- Two outcomes of one instruction, on `s` and on `s'`, are the same stop or the same named update with the same results. -/
inductive EndsAlike (i : Instr) (s s' : State) : Result → Result → Prop where
  | crc (kind : isCrcCommand i = true) (c : Word) : EndsAlike i s s' (.next (s.putCrc c)) (.next (s'.putCrc c))
  | built (kind : isEncoderCommand i = true) (f : List Byte) :
    EndsAlike i s s' (.next (s.putFrame f)) (.next (s'.putFrame f))
  | notBuilt (kind : isEncoderCommand i = true) (k : Failure) :
    EndsAlike i s s' (.next (s.fail .encoder k)) (.next (s'.fail .encoder k))
  | accepted (kind : isDecoderInstr i = true) (h : RespHeader) (x : List Byte) :
    EndsAlike i s s' (.next (s.putResponse h x)) (.next (s'.putResponse h x))
  | rejected (kind : isDecoderInstr i = true) (k : Failure) :
    EndsAlike i s s' (.next (s.fail .decoder k)) (.next (s'.fail .decoder k))
  | fault (r : Fault) : EndsAlike i s s' (.fault r) (.fault r)
  | refused (r : Refusal) : EndsAlike i s s' (.refused r) (.refused r)

theorem deliver_endsAlike {i : Instr} {s s' : State} (hi : isDecoderInstr i = true)
    (hcap : s'.cfg.obufCap = s.cfg.obufCap) (v : Option Verdict) : EndsAlike i s s' (deliver v s) (deliver v s') := by
  rcases v with _ | k | ⟨h, x⟩
  · exact .refused _
  · exact .rejected hi k
  · simp only [deliver, hcap]
    split
    · exact .accepted hi h x
    · exact .fault _

/-- A received frame is its own operand: what IBUF held before does not matter. -/
theorem parseReceived_endsAlike {i : Instr} {s s' : State} (hi : isDecoderInstr i = true) (hcfg : s'.cfg = s.cfg)
    (f : List Byte) :
    EndsAlike i (s.loadFrame f) (s'.loadFrame f) (parseReceived f s) (parseReceived f s') := by
  have hv : parseBuffer (s'.loadFrame f).ibuf f.length = parseBuffer (s.loadFrame f).ibuf f.length :=
    parseBuffer_congr fun a ha => by
      simp only [State.loadFrame_ibuf, Memory.get_setAll]
      rw [if_pos (by omega), if_pos (by omega)]
  simp only [parseReceived, State.loadFrame_ilen, hv, hcfg]
  split
  · exact deliver_endsAlike hi (by simp [hcfg]) _
  · exact .fault _

/-- An instruction's outcome is decided by the operands of its own row of 30_encoding.md Table 30-5. -/
theorem exec_endsAlike {i : Instr} {s s' : State} (h : sameRowOperands i s s') :
    EndsAlike i (s.received i) (s'.received i) (exec i s) (exec i s') := by
  cases i with
  | crcInit => exact .crc rfl _
  | crcByte =>
    obtain ⟨hdata, hcrc⟩ := h
    simp only [exec, execCrcByte, hdata, hcrc]
    exact .crc rfl _
  | crcSum =>
    simp only [exec, execCrcSum, State.message_congr h]
    cases s.message with
    | none => exact .refused _
    | some m => exact .crc rfl _
  | encFrame =>
    obtain ⟨hcap, hop, hpin, hm⟩ := h
    simp only [exec, execEncFrame, State.message_congr hm, frameFits_congr hcap, hm.1, hop, hpin]
    split
    · cases s.message with
      | none => exact .refused _
      | some p => exact .built rfl _
    · exact .notBuilt rfl _
  | encRead =>
    obtain ⟨hcap, hpin⟩ := h
    simp only [exec, execEncRead, frameFits_congr hcap, hpin]
    split
    · exact .built rfl _
    · exact .notBuilt rfl _
  | encWrite =>
    obtain ⟨hcap, hpin, he⟩ := h
    simp only [exec, execEncWrite, State.entries_congr he, buildWrite_congr hcap, hpin]
    cases s.entries with
    | none => exact .refused _
    | some es =>
      dsimp only
      cases buildWrite s.cfg s.pin es with
      | ok f => exact .built rfl f
      | error k => exact .notBuilt rfl k
  | decParse =>
    obtain ⟨hcap, hlen, hm⟩ := h
    simp only [exec, execDecParse, hlen, parseBuffer_congr hm]
    exact deliver_endsAlike rfl hcap _
  | readReq len pin payload sum => exact parseReceived_endsAlike rfl h _
  | writeReq len pin entries sum => exact parseReceived_endsAlike rfl h _
  | readRsp len start count dcb sum => exact parseReceived_endsAlike rfl h _

/-- Outcomes that are alike deliver the same. -/
theorem EndsAlike.delivered_eq {i : Instr} {s s' : State} {r r' : Result} (h : EndsAlike i s s' r r') :
    outcomeView (delivered i) r' = outcomeView (delivered i) r := by
  cases h with
  | crc kind c => simp [outcomeView, delivered, kind, not_decoder_of_crc kind]
  | built kind f | notBuilt kind k =>
    simp [outcomeView, delivered, not_crc_of_encoder kind, not_decoder_of_encoder kind, Memory.getAll_setAll]
  | accepted kind h x | rejected kind k =>
    simp [outcomeView, delivered, kind, not_crc_of_decoder kind, Memory.getAll_setAll]
  | fault r | refused r => rfl

/-- An update of fields that the ends of the codec instructions do not write. For a record update of such a field each law holds
by computation, so `{}` is its proof. -/
structure Bystander (g : State → State) : Prop where
  putFrame : ∀ f s, (g s).putFrame f = g (s.putFrame f) := by intros; rfl
  putResponse : ∀ h x s, (g s).putResponse h x = g (s.putResponse h x) := by intros; rfl
  failEncoder : ∀ k s, (g s).fail .encoder k = g (s.fail .encoder k) := by intros; rfl
  failDecoder : ∀ k s, (g s).fail .decoder k = g (s.fail .decoder k) := by intros; rfl

/-- An update that an instruction neither reads nor writes can be made before it or after it. -/
theorem exec_bystander {g : State → State} (hg : Bystander g) {i : Instr} {s : State}
    (hcrc : isCrcCommand i = true → ∀ c s, (g s).putCrc c = g (s.putCrc c))
    (hrec : (g s).received i = g (s.received i)) (hrow : sameRowOperands i s (g s)) :
    exec i (g s) = mapNext g (exec i s) := by
  have alike := exec_endsAlike hrow
  rw [hrec] at alike
  generalize exec i s = r, exec i (g s) = r' at alike
  cases alike with
  | crc kind c => exact congrArg _ (hcrc kind c _)
  | built _ f => exact congrArg _ (hg.putFrame f _)
  | notBuilt _ k => exact congrArg _ (hg.failEncoder k _)
  | accepted _ h x => exact congrArg _ (hg.putResponse h x _)
  | rejected _ k => exact congrArg _ (hg.failDecoder k _)
  | fault r | refused r => rfl

/-- Settles O12: the two runs end alike, so they deliver the same. -/
theorem resultsDependOnOperandsOnly : Obligations.ResultsDependOnOperandsOnly :=
  fun _ _ _ hrow => (exec_endsAlike hrow).delivered_eq

/-- Every row but that of CRC.BYTE leaves `crc` out. -/
theorem sameRowOperands_crc {i : Instr} (hi : isCrcCommand i = false) (s : State) (c : Word) :
    sameRowOperands i s { s with crc := c } := by
  cases i <;> simp_all [isCrcCommand, sameRowOperands, sameMessage, sameEntries]

/-- Settles O11: `crc` is in no codec instruction's row, and no codec instruction's end writes it. -/
theorem codecIgnoresCrc : Obligations.CodecIgnoresCrc := by
  intro i s c hi
  refine exec_bystander (g := fun t => { t with crc := c }) {} (by simp [hi]) ?_
    (sameRowOperands_crc hi s c)
  cases hc : isCommand i with
  | true => rw [State.received_command hc, State.received_command hc]
  | false => rw [State.received_wire hc, State.received_wire hc]; rfl

/-! ### Elements at and beyond a valid length -/

/-- A command's row is covered by the registers, the message and the entries. -/
theorem sameRowOperands_of_parts {i : Instr} {s s' : State} (hi : isCommand i = true) (hcfg : s'.cfg = s.cfg)
    (hdata : s'.data = s.data) (hcrc : s'.crc = s.crc) (hop : s'.op = s.op) (hpin : s'.pin = s.pin)
    (hm : sameMessage s s') (he : sameEntries s s') : sameRowOperands i s s' := by
  cases i <;> simp_all [sameRowOperands, isCommand]

theorem Memory.get_set_of_ne {α : Type} (m : Memory α) {a b : Nat} (v : α) (h : b ≠ a) :
    Memory.get (Memory.set m a v) b = Memory.get m b := by
  rw [Memory.get_set, if_neg h]

/-- VAL keys name one entry and one index each (log 21). -/
theorem entValKey_eq {j k j' i : Nat} (hk : k ≤ 254) (hi : i ≤ 254) (h : entValKey j' i = 255 * j + k) : j' = j ∧ i = k := by
  simp only [entValKey, Config.valCap] at h
  omega

theorem sameMessage_refl (s : State) : sameMessage s s := ⟨rfl, fun _ _ => rfl⟩

theorem sameEntries_refl (s : State) : sameEntries s s := ⟨rfl, fun _ _ => ⟨rfl, rfl, fun _ _ _ _ => rfl⟩⟩

/-- A command neither reads nor writes what `g` updates, if `g` touches buffers only and no valid element of them. -/
theorem exec_command_bystander {g : State → State} (hg : Bystander g) (hcrc : ∀ c s, (g s).putCrc c = g (s.putCrc c))
    {i : Instr} {s : State} (hi : isCommand i = true) (hrow : sameRowOperands i s (g s)) :
    exec i (g s) = mapNext g (exec i s) :=
  exec_bystander hg (fun _ => hcrc) (by rw [State.received_command hi, State.received_command hi]) hrow

/-- Settles O57: an element beyond a valid length is in no command's row, and no command's end writes IBUF or ENT. -/
theorem nothingBeyondValidLengthRead : Obligations.NothingBeyondValidLengthRead := by
  intro i s hi
  refine ⟨fun a b ha => ?_, fun j w hj => ?_, fun j b hj => ?_, fun j k b hk hbeyond => ?_⟩
  · refine exec_command_bystander (g := fun t => { t with ibuf := Memory.set t.ibuf a b }) {} (fun _ _ => rfl) hi ?_
    have hm : sameMessage s { s with ibuf := Memory.set s.ibuf a b } :=
      ⟨rfl, fun x hx => Memory.get_set_of_ne _ _ (by omega)⟩
    exact sameRowOperands_of_parts hi rfl rfl rfl rfl rfl hm (sameEntries_refl s)
  · refine exec_command_bystander (g := fun t => { t with entPos := Memory.set t.entPos j w }) {} (fun _ _ => rfl) hi ?_
    have he : sameEntries s { s with entPos := Memory.set s.entPos j w } :=
      ⟨rfl, fun x hx => ⟨Memory.get_set_of_ne _ _ (by omega), rfl, fun _ _ _ _ => rfl⟩⟩
    exact sameRowOperands_of_parts hi rfl rfl rfl rfl rfl (sameMessage_refl s) he
  · refine exec_command_bystander (g := fun t => { t with entLen := Memory.set t.entLen j b }) {} (fun _ _ => rfl) hi ?_
    have he : sameEntries s { s with entLen := Memory.set s.entLen j b } :=
      ⟨rfl, fun x hx => ⟨rfl, Memory.get_set_of_ne _ _ (by omega), fun _ _ _ _ => rfl⟩⟩
    exact sameRowOperands_of_parts hi rfl rfl rfl rfl rfl (sameMessage_refl s) he
  · refine exec_command_bystander (g := fun t => { t with entVal := Memory.set t.entVal (255 * j + k) b }) {}
      (fun _ _ => rfl) hi ?_
    have he : sameEntries s { s with entVal := Memory.set s.entVal (255 * j + k) b } := by
      refine ⟨rfl, fun x hx => ⟨rfl, rfl, fun len n hlen hn => Memory.get_set_of_ne _ _ fun heq => ?_⟩⟩
      obtain ⟨rfl, rfl⟩ := entValKey_eq hk (by have := len.isLt; omega) heq
      rcases hbeyond with hj | hl
      · omega
      · have := hl len hlen; omega
    exact sameRowOperands_of_parts hi rfl rfl rfl rfl rfl (sameMessage_refl s) he

/-! ### What steps and commands leave unchanged -/

/-- A host action that changes `crc` is the reset or a CRC command word. -/
theorem HostOutcome.crc_changed {s t : State} {act : HostAction} (h : HostOutcome s t act) (hne : t.crc ≠ s.crc) :
    act = .reset ∨ act = .issue (.command 0x00) ∨ act = .issue (.command 0x01) ∨ act = .issue (.command 0x02) := by
  cases h with
  | data b eq | op b eq | pin w eq | ilen n _ eq | ecnt b eq | ibuf a b _ eq | entPos j w _ eq | entLen j b _ eq
  | entVal j i b _ _ eq | undefined w eq | readReg r v _ eq | readObuf a v _ eq => subst eq; exact absurd rfl hne
  | reset _ => exact .inl rfl
  | command w i dec out =>
    cases hi : isCrcCommand i with
    | false => exact absurd (out.crc_kept hi) hne
    | true => rcases crc_command_word dec hi with rfl | rfl | rfl <;> simp
  | wire f i dec out =>
    exact absurd (out.crc_kept (not_crc_of_decoder (decoder_of_not_command (decode_wire_kind dec)))) hne
  | other f _ out => exact absurd out.keeps.2 hne

/-- Settles O10: an idle step keeps `crc`, and every other step is a host action. -/
theorem crcChangedOnlyByCrcUnit : Obligations.CrcChangedOnlyByCrcUnit := by
  intro s t hstep hne
  cases htodo : s.todo with
  | nil =>
    rw [step_idle htodo] at hstep
    cases hstep
    exact absurd rfl hne
  | cons act rest =>
    rw [step_cons htodo] at hstep
    exact ⟨act, rest, rfl, (hostStep_next hstep).crc_changed hne⟩

/-- Settles O18, from the two ends an encoder command has. -/
theorem encoderFrame : Obligations.EncoderFrame := by
  intro i s t hi hexec
  rcases (exec_next hexec).of_encoder hi with ⟨f, rfl⟩ | rfl
  · exact ⟨sameInputs_putFrame f s, rfl, rfl, fun a => get_putFrame_beyond f s, fun hne => absurd rfl hne⟩
  · exact ⟨sameInputs_fail _ _ s, rfl, rfl, fun _ _ => rfl, fun _ => ⟨rfl, rfl⟩⟩

/-- Settles O51, from the ends the commands have. -/
theorem commandsKeepOperands : Obligations.CommandsKeepOperands := by
  intro i s t hi hexec
  have out := exec_next hexec
  refine ⟨out.inputs_kept hi, fun hcrc => ?_⟩
  obtain ⟨c, rfl⟩ := out.of_crc hcrc
  rfl

/-! ### STATUS and the R_ registers -/

/-- A command word that decodes to nothing performs no operation and reports IllegalCommand (30_encoding.md R61). -/
theorem hostStep_undefined_command {s : State} {w : Byte} (h : ∀ i, decode (.command w) ≠ .ok i) :
    hostStep (.issue (.command w)) s = .next ((s.latch w).fail .port .illegalCommand) := by
  cases hd : decode (.command w) with
  | ok i => exact absurd hd (h i)
  | error e => simp only [hostStep, issue, hd]

/-- Settles O47, by the classes of instructions and the port's answer to an undefined word. -/
theorem statusCodesByCommand : Obligations.StatusCodesByCommand := by
  constructor
  · intro i s t hexec
    have out := exec_next hexec
    have henc (hi : isEncoderCommand i = true) : t.status = 0x00 ∨ t.status = 0x10 := by
      rcases out.of_encoder hi with ⟨f, rfl⟩ | rfl
      · exact .inl rfl
      · exact .inr rfl
    refine ⟨fun hi => ?_, fun hi => henc (by rcases hi with rfl | rfl <;> rfl), fun hi => ?_, fun hi => ?_⟩
    · obtain ⟨c, rfl⟩ := out.of_crc hi
      rfl
    · exact (henc (by rw [hi]; rfl)).imp_right .inl
    · obtain ⟨u, -, hparse⟩ := out.of_decoder hi
      exact hparse.status_cases
  · intro s w rest htodo hundef
    rw [step_cons htodo, hostStep_undefined_command hundef]
    rfl

/-- The R_ registers change by a reset, by DEC.PARSE and by a received frame only. -/
theorem HostOutcome.parsed_kept {s t : State} {act : HostAction} (h : HostOutcome s t act) (hreset : act ≠ .reset)
    (hparse : act ≠ .issue (.command 0x07)) (hwire : ∀ f, act ≠ .issue (.wire f)) : t.parsed = s.parsed := by
  cases h with
  | data b eq | op b eq | pin w eq | ilen n _ eq | ecnt b eq | ibuf a b _ eq | entPos j w _ eq | entLen j b _ eq
  | entVal j i b _ _ eq | undefined w eq | readReg r v _ eq | readObuf a v _ eq => subst eq; rfl
  | reset _ => exact absurd rfl hreset
  | command w i dec out =>
    refine (out.parsed_kept (decode_command_kind dec) fun hi => hparse ?_).trans (State.latch_parsed w s)
    subst hi
    cases encode_of_decode_command dec
    rfl
  | wire f => exact absurd rfl (hwire f)
  | other f => exact absurd rfl (hwire f)

/-- A received frame ends as a parse ends, whatever it decodes to. -/
theorem HostOutcome.of_wire {s t : State} {f : List Byte} (h : HostOutcome s t (.issue (.wire f))) :
    ∃ u, ParseOutcome u t := by
  cases h with
  | wire _ i dec out =>
    obtain ⟨u, -, hparse⟩ := out.of_decoder (decoder_of_not_command (decode_wire_kind dec))
    exact ⟨u, hparse⟩
  | other _ _ out => exact ⟨_, out⟩

/-- An R_ register without a value has no number to read (93_implementation_defined.md U5). -/
theorem readRegister_noValue {s : State} {r : HostReg} (hs : s.parsed = none)
    (hr : r = .rCode ∨ r = .rLen ∨ r = .rStart ∨ r = .rCount) : readRegister s r = .error (.noValue r) := by
  rcases hr with rfl | rfl | rfl | rfl <;> simp only [readRegister, readParsed, hs]

/-- Settles O25, from what each host action leaves in the R_ registers. -/
theorem responseRegistersFollowParse : Obligations.ResponseRegistersFollowParse := by
  refine ⟨rfl, fun s t act rest htodo hstep => ?_, fun s r rest hs hr htodo => ?_⟩
  · rw [step_cons htodo] at hstep
    have out := hostStep_next hstep
    refine ⟨fun hact => ?_, fun hact => ?_, fun h1 h2 h3 => out.parsed_kept h1 h2 h3⟩
    · subst hact
      cases out with
      | reset eq => subst eq; rfl
    · rcases hact with rfl | ⟨f, rfl⟩
      · have hparse : ParseOutcome ((s.withTodo rest).latch 0x07) t := deliver_next hstep
        exact hparse.parsed_iff
      · obtain ⟨u, hparse⟩ := out.of_wire
        exact hparse.parsed_iff
  · have hread : readRegister (s.withTodo rest) r = .error (.noValue r) := readRegister_noValue hs hr
    rw [step_cons htodo]
    simp only [hostStep, hread, finishRead]

/-! ### Unwritten operands -/

/-- A block read that meets an element nobody has written is absent (10_state.md R20). -/
theorem Memory.getAll_unwritten {α : Type} {m : Memory α} {a n i : Nat} (hi : i < n)
    (h : Memory.get m (a + i) = none) : Memory.getAll m a n = none := by
  refine Option.eq_none_iff_forall_ne_some.mpr fun vs hvs => ?_
  obtain ⟨hl, hg⟩ := Memory.getAll_iff.mp hvs
  have := List.getElem?_eq_none_iff.mp ((hg i hi).symm.trans h)
  omega

theorem Memory.get16_unwritten {m : Memory Byte} {a : Nat} (h : Memory.get m a = none ∨ Memory.get m (a + 1) = none) :
    Memory.get16 m a = none := by
  rcases h with h | h <;> simp [Memory.get16, h]

theorem State.message_unwritten {s : State} {a : Nat} (ha : a < s.ilen) (h : Memory.get s.ibuf a = none) :
    s.message = none := Memory.getAll_unwritten ha (by rwa [Nat.zero_add])

theorem State.entriesFrom_unwritten {s : State} {j n k : Nat} (hj : j ≤ k) (hk : k < j + n) (h : s.entry k = none) :
    s.entriesFrom j n = none := by
  induction n generalizing j with
  | zero => omega
  | succ n ih =>
    rw [State.entriesFrom]
    rcases Nat.eq_or_lt_of_le hj with rfl | hlt
    · simp only [h]
    · rw [ih hlt (by omega)]
      cases s.entry j <;> rfl

theorem State.entry_unwritten {s : State} {j : Nat}
    (h : Memory.get s.entPos j = none ∨ Memory.get s.entLen j = none ∨
      ∃ l i, Memory.get s.entLen j = some l ∧ i < l.toNat ∧ Memory.get s.entVal (255 * j + i) = none) :
    s.entry j = none := by
  rcases h with h | h | ⟨l, i, hl, hi, hv⟩
  · simp [State.entry, h]
  · simp [State.entry, h]
  · have : Memory.getAll s.entVal (entValKey j 0) l.toNat = none := Memory.getAll_unwritten hi hv
    cases hp : Memory.get s.entPos j <;> simp [State.entry, hp, hl, this]

/-- Low byte first (30_encoding.md R57). -/
theorem join16_toNat (lo hi : Byte) : (join16 lo hi).toNat = lo.toNat + 256 * hi.toNat := by
  have hlo := lo.isLt
  have hhi := hi.isLt
  have hor : hi.toNat <<< 8 + lo.toNat = hi.toNat <<< 8 ||| lo.toNat := Nat.shiftLeft_add_eq_or_of_lt hlo _
  have hsh : hi.toNat <<< 8 = 256 * hi.toNat := by rw [Nat.shiftLeft_eq]; omega
  simp only [join16, BitVec.toNat_or, BitVec.toNat_shiftLeft, BitVec.toNat_setWidth]
  rw [Nat.mod_eq_of_lt (by omega), Nat.mod_eq_of_lt (by omega : hi.toNat < 2 ^ 16), Nat.mod_eq_of_lt (by omega),
    Nat.or_comm, ← hor, hsh]
  omega

section Parse
variable {m : Memory Byte} {n : Nat}

/-- DEC.PARSE reads byte 0 first. -/
theorem parseBuffer_code_unwritten (hn : 1 ≤ n) (h : Memory.get m 0 = none) : parseBuffer m n = none := by
  rw [parseBuffer, if_neg (by omega), h]

/-- After the right code DEC.PARSE checks the length. -/
theorem parseBuffer_of_code (hn : 1 ≤ n) (h : Memory.get m 0 = some rspReadAck) :
    parseBuffer m n = checkLength m n rspReadAck := by
  rw [parseBuffer, if_neg (by omega), h]
  simp

theorem checkLength_unwritten (hn : 3 ≤ n) (h : Memory.get m 1 = none ∨ Memory.get m 2 = none) (code : Byte) :
    checkLength m n code = none := by
  rw [checkLength, if_neg (by omega), Memory.get16_unwritten h]

/-- After the right length of a frame that is long enough DEC.PARSE checks the checksum. -/
theorem checkLength_of_len (hn : 9 ≤ n) {len : Word} (h : Memory.get16 m 1 = some len) (hl : len.toNat = n) (code : Byte) :
    checkLength m n code = checkSum m n code len := by
  rw [checkLength, if_neg (by omega), h]
  simp only [hl, if_true]
  rw [if_neg (by omega)]

/-- The checksum check reads every byte of the frame. -/
theorem checkSum_unwritten {a : Nat} (hn : 2 ≤ n) (ha : a < n) (h : Memory.get m a = none) (code : Byte) (len : Word) :
    checkSum m n code len = none := by
  by_cases hcov : a < n - 2
  · have : Memory.getAll m 0 (n - 2) = none := Memory.getAll_unwritten hcov (by rwa [Nat.zero_add])
    cases hs : Memory.get16 m (n - 2) <;> simp [checkSum, hs, this]
  · have hor : a = n - 2 ∨ a = n - 2 + 1 := by omega
    have : Memory.get16 m (n - 2) = none := Memory.get16_unwritten (by rcases hor with rfl | rfl <;> simp [h])
    simp [checkSum, this]

/-- An accepted frame has every byte written. -/
theorem Accepted.written {h : RespHeader} {x : List Byte} (acc : Accepted m n h x) {a : Nat} (ha : a < n) :
    Memory.get m a ≠ none := by
  intro hnone
  obtain ⟨covered, hcov, hsum⟩ := acc.sum
  have := checkSum_unwritten (by have := acc.long; omega) ha hnone h.code h.len
  simp [checkSum, hcov, hsum, readResponse, acc.start, acc.count, acc.slice] at this

end Parse

theorem exec_decParse_unwritten {s : State} (h : parseBuffer s.ibuf s.ilen = none) :
    exec .decParse s = .refused (.unwrittenOperand .ibuf) := by
  simp only [exec, execDecParse, h, deliver]

/-- A frame with an unwritten byte is never accepted. -/
theorem exec_decParse_not_ok {s t : State} {a : Nat} (ha : a < s.ilen) (h : Memory.get s.ibuf a = none)
    (hexec : exec .decParse s = .next t) : t.status ≠ 0x00 := by
  have out : ParseOutcome s t := deliver_next hexec
  cases out with
  | accepted hd x acc _ _ => exact absurd h (acc.written ha)
  | rejected k _ eq => subst eq; rw [State.fail_status]; exact failureCode_ne_ok k

/-- Settles O46: each command's operand is absent where the command reads an unwritten element. -/
theorem unwrittenOperandRefused : Obligations.UnwrittenOperandRefused := by
  intro s
  refine ⟨fun a ha h => ⟨?_, fun hmax hcap => ?_, fun t => exec_decParse_not_ok ha h⟩, fun hn h => ?_, fun hn h0 h => ?_,
    fun a lo hi hn h0 h1 h2 hl ha h => ?_, fun j hj h => ?_⟩
  · simp only [exec, execCrcSum, State.message_unwritten ha h]
  · simp only [exec, execEncFrame, (frameFits_iff s.cfg s.ilen).mpr ⟨hmax, hcap⟩, State.message_unwritten ha h, if_true]
  · exact exec_decParse_unwritten (parseBuffer_code_unwritten hn h)
  · refine exec_decParse_unwritten ?_
    rw [parseBuffer_of_code (by omega) h0, checkLength_unwritten hn h]
  · refine exec_decParse_unwritten ?_
    have hlen : Memory.get16 s.ibuf 1 = some (join16 lo hi) := by simp [Memory.get16, h1, h2]
    rw [parseBuffer_of_code (by omega) h0, checkLength_of_len hn hlen (by rw [join16_toNat, hl]),
      checkSum_unwritten (by omega) ha h]
  · have : s.entries = none := State.entriesFrom_unwritten (Nat.zero_le j) (by omega) (State.entry_unwritten h)
    simp only [exec, execEncWrite, this]

/-! ### Reset -/

/-- Settles O1: the reset state is written out field by field, its buffers empty. -/
theorem resetLeavesTableValues : Obligations.ResetLeavesTableValues :=
  ⟨rfl, rfl, rfl, rfl, rfl, rfl, rfl, rfl, rfl, rfl, fun _ => ⟨Memory.get_nil _, Memory.get_nil _⟩,
    fun _ => ⟨Memory.get_nil _, Memory.get_nil _, Memory.get_nil _⟩⟩

end Sys2Proof.Machine

/-! PROOFS of the family 20_memory: no command faults under the invariant, and where an instruction writes. -/

namespace Sys2Proof.Machine

/-! ### No command faults -/

/-- The constraint on the parameters, as arithmetic (20_memory.md R33). -/
theorem configOk_iff {c : Config} : c.ok = true ↔ c.ibufCap ≤ c.obufCap + 9 := decide_eq_true_iff

/-- An accepted response's slice is the frame without its seven header bytes and two checksum bytes (42_frame_decoder.md R100). -/
theorem Accepted.slice_length {m : Memory Byte} {n : Nat} {h : RespHeader} {x : List Byte} (acc : Accepted m n h x) :
    x.length = n - 9 := Memory.getAll_length acc.slice

/-- A parse of a frame at most nine bytes longer than OBUF has room for its slice, so it ends in no fault. -/
theorem deliver_faultFree {s : State} {m : Memory Byte} {n : Nat} (hn : n ≤ s.cfg.obufCap + 9) :
    faultFree (deliver (parseBuffer m n) s) = true := by
  cases hp : parseBuffer m n with
  | none => rfl
  | some v =>
    rcases parseBuffer_cases hp with ⟨h, x, rfl, acc⟩ | ⟨k, rfl, -⟩
    · have hx : x.length ≤ s.cfg.obufCap := by rw [acc.slice_length]; omega
      simp only [deliver, if_pos hx, faultFree]
    · rfl

/-- The CRC unit and the encoder fault in no state: they end well, fail by a STATUS code or refuse an unwritten operand. -/
theorem exec_faultFree_of_not_decoder {i : Instr} (hi : isDecoderInstr i = false) (s : State) :
    faultFree (exec i s) = true := by
  cases i with
  | crcInit | crcByte => rfl
  | crcSum =>
    simp only [exec, execCrcSum]
    cases s.message <;> rfl
  | encFrame =>
    simp only [exec, execEncFrame]
    split
    · cases s.message <;> rfl
    · rfl
  | encRead =>
    simp only [exec, execEncRead]
    split <;> rfl
  | encWrite =>
    simp only [exec, execEncWrite]
    cases s.entries with
    | none => rfl
    | some es =>
      dsimp only
      cases buildWrite s.cfg s.pin es <;> rfl
  | decParse | readReq | writeReq | readRsp => simp [isDecoderInstr] at hi

/-- Settles O54: only DEC.PARSE can fault, and the invariant keeps ILEN within IBUF_CAP, so within OBUF_CAP + 9. -/
theorem noCommandFaults : Obligations.NoCommandFaults := by
  intro i s hinv hi
  cases hd : isDecoderInstr i with
  | false => exact exec_faultFree_of_not_decoder hd s
  | true =>
    obtain rfl : i = .decParse := by cases i <;> simp_all [isCommand, isDecoderInstr]
    exact deliver_faultFree (hinv.ilenIn.trans (configOk_iff.mp hinv.cfg))

/-! ### Where an instruction writes -/

/-- OBUF at and beyond the new OLEN reads as before a parse. -/
theorem ParseOutcome.get_obuf_beyond {s t : State} (h : ParseOutcome s t) {a : Nat} (ha : t.olen ≤ a) :
    Memory.get t.obuf a = Memory.get s.obuf a := by
  cases h with
  | accepted hd x _ _ eq =>
    subst eq
    rw [State.putResponse_olen] at ha
    rw [State.putResponse_obuf, Memory.get_setAll, if_neg (by omega)]
  | rejected k _ eq => subst eq; rfl

/-- What a parse delivers fits OBUF. -/
theorem ParseOutcome.olen_le {s t : State} (h : ParseOutcome s t) : t.olen ≤ s.cfg.obufCap := by
  cases h with
  | accepted hd x _ fits eq => subst eq; exact fits
  | rejected k _ eq => subst eq; exact Nat.zero_le _

/-- A next state of a wire frame is the outcome of a parse of the loaded frame, which fits IBUF (log 6, log 11). -/
theorem ExecOutcome.of_wire {i : Instr} {s t : State} (hi : isCommand i = false) (h : ExecOutcome i s t) :
    (wireBytes i).length ≤ s.cfg.ibufCap ∧ ParseOutcome (s.loadFrame (wireBytes i)) t := by
  have hd := decoder_of_not_command hi
  cases h with
  | crc kind => simp [not_decoder_of_crc kind] at hd
  | built kind | notBuilt kind => simp [not_decoder_of_encoder kind] at hd
  | parsed kind => simp [kind, isCommand] at hi
  | received _ fits out => exact ⟨fits, out⟩

/-- OBUF at and beyond the new OLEN reads as before a codec instruction. -/
theorem ExecOutcome.get_obuf_beyond {i : Instr} {s t : State} (hi : isCrcCommand i = false) (h : ExecOutcome i s t)
    {a : Nat} (ha : t.olen ≤ a) : Memory.get t.obuf a = Memory.get s.obuf a := by
  cases h with
  | crc kind => simp [hi] at kind
  | built _ op p _ eq => subst eq; exact get_putFrame_beyond _ s ha
  | notBuilt _ eq => subst eq; rfl
  | parsed _ out | received _ _ out => exact out.get_obuf_beyond ha

/-- What a codec instruction delivers fits OBUF. -/
theorem ExecOutcome.olen_le {i : Instr} {s t : State} (hi : isCrcCommand i = false) (h : ExecOutcome i s t) :
    t.olen ≤ s.cfg.obufCap := by
  cases h with
  | crc kind => simp [hi] at kind
  | built _ op p fits eq =>
    subst eq
    rw [State.putFrame_olen, frame_length]
    exact ((frameFits_iff _ _).mp fits).2
  | notBuilt _ eq => subst eq; exact Nat.zero_le _
  | parsed _ out | received _ _ out => exact out.olen_le

theorem sameInputs.ibuf_ilen {s t : State} (h : sameInputs s t) : t.ibuf = s.ibuf ∧ t.ilen = s.ilen := by
  obtain ⟨⟨-, -, -, -, hilen, -, hibuf, -⟩, -⟩ := h
  exact ⟨hibuf, hilen⟩

theorem sameInputs.ent {s t : State} (h : sameInputs s t) :
    t.entPos = s.entPos ∧ t.entLen = s.entLen ∧ t.entVal = s.entVal := by
  obtain ⟨⟨-, -, -, -, -, -, -, hent⟩, -⟩ := h
  exact hent

/-- Under a wire frame IBUF and ILEN change by the loading of the frame alone (log 6). -/
theorem ExecOutcome.ibuf_ilen_of_wire {i : Instr} {s t : State} (hi : isCommand i = false) (h : ExecOutcome i s t) :
    t.ibuf = Memory.setAll s.ibuf 0 (wireBytes i) ∧ t.ilen = (wireBytes i).length :=
  (h.of_wire hi).2.keeps.1.ibuf_ilen

/-- No instruction writes ENT (10_state.md Table 10-1). -/
theorem ExecOutcome.ent_kept {i : Instr} {s t : State} (h : ExecOutcome i s t) :
    t.entPos = s.entPos ∧ t.entLen = s.entLen ∧ t.entVal = s.entVal := by
  cases hi : isCommand i with
  | true => exact (h.inputs_kept hi).ent
  | false => exact (h.of_wire hi).2.keeps.1.ent

/-- A byte of OBUF that changes is written by a codec instruction, below the new OLEN. -/
theorem ExecOutcome.obuf_changed {i : Instr} {s t : State} (h : ExecOutcome i s t) {a : Nat}
    (hne : Memory.get t.obuf a ≠ Memory.get s.obuf a) : isCrcCommand i = false ∧ a < t.olen := by
  cases hi : isCrcCommand i with
  | true =>
    obtain ⟨c, rfl⟩ := h.of_crc hi
    exact absurd rfl hne
  | false => exact ⟨rfl, Nat.lt_of_not_le fun ha => hne (h.get_obuf_beyond hi ha)⟩

/-- A byte of IBUF that changes is one of a received frame, so below the new ILEN. -/
theorem ExecOutcome.ibuf_changed {i : Instr} {s t : State} (h : ExecOutcome i s t) {a : Nat}
    (hne : Memory.get t.ibuf a ≠ Memory.get s.ibuf a) : isCommand i = false ∧ a < t.ilen := by
  cases hi : isCommand i with
  | true => exact absurd (congrArg (Memory.get · a) (h.inputs_kept hi).ibuf_ilen.1) hne
  | false =>
    obtain ⟨hibuf, hilen⟩ := h.ibuf_ilen_of_wire hi
    refine ⟨rfl, Nat.lt_of_not_le fun ha => hne ?_⟩
    rw [hibuf, Memory.get_setAll, if_neg (by omega)]

/-- Settles O56, from what each class of instructions leaves in OBUF, IBUF and ENT. -/
theorem writesStayInBuffers : Obligations.WritesStayInBuffers := by
  intro i s t hexec
  have out := exec_next hexec
  have hilen (hi : isCommand i = false) : t.ilen ≤ s.cfg.ibufCap := by
    rw [(out.ibuf_ilen_of_wire hi).2]
    exact (out.of_wire hi).1
  exact ⟨fun _ => out.obuf_changed, out.olen_le, fun _ => out.ibuf_changed, hilen, out.ent_kept⟩

end Sys2Proof.Machine

/-! PROOFS of the family 30_encoding: the decoder and the encoder are inverse to each other, the encoder commands all end in one
build, and the lines of R64 run as lists of host actions. -/

namespace Sys2Proof.Machine

/-! ### Sixteen-bit fields -/

theorem lo8_toNat (v : Word) : (lo8 v).toNat = v.toNat % 256 := by simp [lo8]

theorem hi8_toNat (v : Word) : (hi8 v).toNat = v.toNat / 256 := by
  have := v.isLt
  simp only [hi8, BitVec.toNat_setWidth, BitVec.toNat_ushiftRight, Nat.shiftRight_eq_div_pow]
  omega

@[simp] theorem join16_lo8_hi8 (v : Word) : join16 (lo8 v) (hi8 v) = v := by
  apply BitVec.eq_of_toNat_eq
  rw [join16_toNat, lo8_toNat, hi8_toNat]
  omega

@[simp] theorem lo8_join16 (lo hi : Byte) : lo8 (join16 lo hi) = lo := by
  have := lo.isLt
  apply BitVec.eq_of_toNat_eq
  rw [lo8_toNat, join16_toNat]
  omega

@[simp] theorem hi8_join16 (lo hi : Byte) : hi8 (join16 lo hi) = hi := by
  have := lo.isLt
  apply BitVec.eq_of_toNat_eq
  rw [hi8_toNat, join16_toNat]
  omega

@[simp] theorem le16_join16 (lo hi : Byte) : le16 (join16 lo hi) = [lo, hi] := by simp [le16]

theorem rd16_append_le16 (x : List Byte) (v : Word) : rd16 (x ++ le16 v) x.length = some v := by
  have hlo : (x ++ le16 v)[x.length]? = some (lo8 v) := by simp [le16]
  have hhi : (x ++ le16 v)[x.length + 1]? = some (hi8 v) := by simp [le16]
  simp only [rd16, hlo, hhi, join16_lo8_hi8]

/-- A frame's last two bytes split off exactly as its checksum field was put on. -/
theorem splitTrailer_eq_some_iff {x b : List Byte} {v : Word} : splitTrailer x = some (b, v) ↔ x = b ++ le16 v := by
  constructor
  · intro h
    unfold splitTrailer at h
    split at h <;> simp only [Option.some.injEq, Prod.mk.injEq, reduceCtorEq] at h
    next lo hi hdrop =>
      obtain ⟨rfl, rfl⟩ := h
      rw [le16_join16, ← hdrop, List.take_append_drop]
  · rintro rfl
    simp [splitTrailer, le16]

/-! ### Serialised entries -/

@[simp] theorem entryOk_iff (e : DcbEntry) : entryOk e = true ↔ e.value.length = e.length.toNat := beq_iff_eq

theorem parseEntries_serEntry {e : DcbEntry} (he : entryOk e = true) (k : Nat) (x : List Byte) :
    parseEntries (k + 1) (serEntry e ++ x) = (parseEntries k x).map (e :: ·) := by
  rw [entryOk_iff] at he
  simp [serEntry, le16, parseEntries, ← he]

/-- What is read as `k + 1` entries starts with a serialised entry. -/
theorem parseEntries_succ_inv {k : Nat} {x : List Byte} {es : List DcbEntry} (h : parseEntries (k + 1) x = some es) :
    ∃ e y es', x = serEntry e ++ y ∧ entryOk e = true ∧ parseEntries k y = some es' ∧ es = e :: es' := by
  unfold parseEntries at h
  split at h
  · next heq => simp at heq
  · next k' p0 p1 l rest heq =>
    obtain rfl : k = k' := Nat.succ.inj heq
    split at h <;> simp only [Option.map_eq_some_iff, reduceCtorEq] at h
    next hl =>
      obtain ⟨es', hes', rfl⟩ := h
      refine ⟨_, _, es', ?_, ?_, hes', rfl⟩
      · simp [serEntry]
      · simpa using hl
  · simp at h

/-- Reading `k` entries inverts serialising `k` entries whose LEN fields are right (30_encoding.md R51, R52). -/
theorem parseEntries_eq_some_iff {k : Nat} {x : List Byte} {es : List DcbEntry} :
    parseEntries k x = some es ↔ es.length = k ∧ es.all entryOk = true ∧ serEntries es = x := by
  constructor
  · intro h
    induction k generalizing x es with
    | zero =>
      cases x with
      | nil => cases h; exact ⟨rfl, rfl, rfl⟩
      | cons b x => simp [parseEntries] at h
    | succ k ih =>
      obtain ⟨e, y, es', rfl, he, hes', rfl⟩ := parseEntries_succ_inv h
      obtain ⟨hl, hok, rfl⟩ := ih hes'
      exact ⟨by simp [hl], by simp [he, hok], rfl⟩
  · rintro ⟨rfl, hok, rfl⟩
    induction es with
    | nil => rfl
    | cons e es ih =>
      obtain ⟨he, hes⟩ := Bool.and_eq_true_iff.mp (List.all_cons.symm.trans hok)
      rw [List.length_cons, serEntries, parseEntries_serEntry he, ih hes, Option.map_some]

theorem serEntries_eq_flatMap (es : List DcbEntry) :
    serEntries es = es.flatMap fun e => le16 e.position ++ [e.length] ++ e.value := by
  induction es with
  | nil => rfl
  | cons e es ih => rw [serEntries, ih, List.flatMap_cons, serEntry]

/-- `ser(E)` as the statements spell it. -/
theorem serPayload_eq_flatMap (es : List DcbEntry) :
    serPayload es = BitVec.ofNat 8 es.length :: es.flatMap fun e => le16 e.position ++ [e.length] ++ e.value := by
  rw [serPayload, serEntries_eq_flatMap]

/-! ### Each layout, decoded exactly where its encoding stands -/

theorem decodeReadReq_eq_ok_iff {x : List Byte} {i : Instr} :
    decodeReadReq x = .ok i ↔ ∃ len pin payload sum, i = .readReq len pin payload sum ∧ payload.length = 4 ∧
      x = le16 len ++ le16 pin ++ payload ++ le16 sum := by
  constructor
  · intro h
    unfold decodeReadReq at h
    split at h <;> simp only [Except.ok.injEq, reduceCtorEq] at h
    exact ⟨_, _, _, _, h.symm, rfl, by simp⟩
  · rintro ⟨len, pin, payload, sum, rfl, hlen, rfl⟩
    obtain ⟨d0, d1, d2, d3, rfl⟩ := List.length_eq_four.mp hlen
    simp [le16, decodeReadReq]

theorem decodeWriteReq_eq_ok_iff {x : List Byte} {i : Instr} :
    decodeWriteReq x = .ok i ↔ ∃ len pin es sum, i = .writeReq len pin es sum ∧ es.length ≤ 255 ∧
      es.all entryOk = true ∧ x = le16 len ++ le16 pin ++ serPayload es ++ le16 sum := by
  constructor
  · intro h
    unfold decodeWriteReq at h
    split at h
    · next l0 l1 p0 p1 k tail =>
      split at h
      · next body sum hsplit =>
        split at h <;> simp only [Except.ok.injEq, reduceCtorEq] at h
        next es hparse =>
          obtain ⟨hk, hok, rfl⟩ := parseEntries_eq_some_iff.mp hparse
          have hbound := k.isLt
          refine ⟨_, _, es, sum, h.symm, by omega, hok, ?_⟩
          simp [splitTrailer_eq_some_iff.mp hsplit, serPayload, hk]
      · simp at h
    · simp at h
  · rintro ⟨len, pin, es, sum, rfl, hlen, hok, rfl⟩
    have hsplit : splitTrailer (serEntries es ++ le16 sum) = some (serEntries es, sum) := splitTrailer_eq_some_iff.mpr rfl
    have hcount : (BitVec.ofNat 8 es.length).toNat = es.length := by
      rw [BitVec.toNat_ofNat]; omega
    have hparse : parseEntries es.length (serEntries es) = some es := parseEntries_eq_some_iff.mpr ⟨rfl, hok, rfl⟩
    show decodeWriteReq (lo8 len :: hi8 len :: lo8 pin :: hi8 pin :: BitVec.ofNat 8 es.length ::
      (serEntries es ++ le16 sum)) = _
    simp only [decodeWriteReq, hsplit, hcount, hparse, join16_lo8_hi8]

theorem decodeReadRsp_eq_ok_iff {x : List Byte} {i : Instr} :
    decodeReadRsp x = .ok i ↔ ∃ len start count dcb sum, i = .readRsp len start count dcb sum ∧
      x = le16 len ++ le16 start ++ le16 count ++ dcb ++ le16 sum := by
  constructor
  · intro h
    unfold decodeReadRsp at h
    split at h
    · split at h <;> simp only [Except.ok.injEq, reduceCtorEq] at h
      next dcb sum hsplit =>
        exact ⟨_, _, _, dcb, sum, h.symm, by simp [splitTrailer_eq_some_iff.mp hsplit]⟩
    · simp at h
  · rintro ⟨len, start, count, dcb, sum, rfl, rfl⟩
    have hsplit : splitTrailer (dcb ++ le16 sum) = some (dcb, sum) := splitTrailer_eq_some_iff.mpr rfl
    show decodeReadRsp (lo8 len :: hi8 len :: lo8 start :: hi8 start :: lo8 count :: hi8 count ::
      (dcb ++ le16 sum)) = _
    simp only [decodeReadRsp, hsplit, join16_lo8_hi8]

/-! ### The round trips -/

/-! The image of a wire frame, byte 0 apart: it chooses the layout (30_encoding.md section 7). -/

theorem encode_readReq (len pin : Word) (payload : List Byte) (sum : Word) :
    encode (.readReq len pin payload sum) = .wire (opcRead :: (le16 len ++ le16 pin ++ payload ++ le16 sum)) := by
  simp [encode, coveredBytes]

theorem encode_writeReq (len pin : Word) (es : List DcbEntry) (sum : Word) :
    encode (.writeReq len pin es sum) = .wire (opcWrite :: (le16 len ++ le16 pin ++ serPayload es ++ le16 sum)) := by
  simp [encode, coveredBytes]

theorem encode_readRsp (len start count : Word) (dcb : List Byte) (sum : Word) :
    encode (.readRsp len start count dcb sum) =
      .wire (rspReadAck :: (le16 len ++ le16 start ++ le16 count ++ dcb ++ le16 sum)) := by
  simp [encode, coveredBytes]

theorem decodeFrame_opcRead (x : List Byte) : decodeFrame (opcRead :: x) = decodeReadReq x := rfl

theorem decodeFrame_opcWrite (x : List Byte) : decodeFrame (opcWrite :: x) = decodeWriteReq x := rfl

theorem decodeFrame_rspReadAck (x : List Byte) : decodeFrame (rspReadAck :: x) = decodeReadRsp x := rfl

theorem encode_of_decodeFrame {f : List Byte} {i : Instr} (h : decodeFrame f = .ok i) :
    encode i = .wire f ∧ i.encodable = true := by
  cases f with
  | nil => simp [decodeFrame] at h
  | cons b x =>
    by_cases hr : b = opcRead
    · subst hr
      obtain ⟨len, pin, payload, sum, rfl, hlen, rfl⟩ := decodeReadReq_eq_ok_iff.mp (decodeFrame_opcRead x ▸ h)
      exact ⟨encode_readReq len pin payload sum, beq_iff_eq.mpr hlen⟩
    by_cases hw : b = opcWrite
    · subst hw
      obtain ⟨len, pin, es, sum, rfl, hlen, hok, rfl⟩ := decodeWriteReq_eq_ok_iff.mp (decodeFrame_opcWrite x ▸ h)
      exact ⟨encode_writeReq len pin es sum, Bool.and_eq_true_iff.mpr ⟨decide_eq_true hlen, hok⟩⟩
    by_cases ha : b = rspReadAck
    · subst ha
      obtain ⟨len, start, count, dcb, sum, rfl, rfl⟩ := decodeReadRsp_eq_ok_iff.mp (decodeFrame_rspReadAck x ▸ h)
      exact ⟨encode_readRsp len start count dcb sum, rfl⟩
    · simp [decodeFrame, hr, hw, ha] at h

/-- Settles O31: a command word by computation, a wire frame by the layout that byte 0 chooses. -/
theorem decodeOfEncode : Obligations.DecodeOfEncode := by
  intro i hi
  cases i with
  | crcInit | crcByte | crcSum | encFrame | encRead | encWrite | decParse => rfl
  | readReq len pin payload sum =>
    rw [encode_readReq]
    exact decodeReadReq_eq_ok_iff.mpr ⟨len, pin, payload, sum, rfl, beq_iff_eq.mp hi, rfl⟩
  | writeReq len pin es sum =>
    obtain ⟨hlen, hok⟩ := Bool.and_eq_true_iff.mp hi
    rw [encode_writeReq]
    exact decodeWriteReq_eq_ok_iff.mpr ⟨len, pin, es, sum, rfl, of_decide_eq_true hlen, hok, rfl⟩
  | readRsp len start count dcb sum =>
    rw [encode_readRsp]
    exact decodeReadRsp_eq_ok_iff.mpr ⟨len, start, count, dcb, sum, rfl, rfl⟩

/-- Settles O32: command words and frames are two spaces, each with its own converse. -/
theorem encodeOfDecode : Obligations.EncodeOfDecode := by
  intro image i h
  cases image with
  | command w =>
    refine ⟨encode_of_decode_command h, ?_⟩
    have hkind := decode_command_kind h
    cases i <;> simp_all [isCommand, Instr.encodable]
  | wire f => exact encode_of_decodeFrame h

/-! ### Command words -/

theorem decode_undefined_command {w : Byte} (h : w = 0x03 ∨ 8 ≤ w.toNat) :
    decode (.command w) = .error (.undefinedCommand w) := by
  rcases h with rfl | h
  · rfl
  · simp only [decode, decodeCommand]
    split
    case h_8 => rfl
    all_goals omega

/-- Settles O33: the seven words by computation, every other one by the decoder's last case. -/
theorem commandWordsDecode : Obligations.CommandWordsDecode :=
  ⟨rfl, rfl, rfl, rfl, rfl, rfl, rfl, fun _ => decode_undefined_command⟩

/-- Settles O35: `rd16` and `join16` at the offset where `le16` wrote. -/
theorem fieldsLittleEndian : Obligations.FieldsLittleEndian := by
  refine ⟨fun v => ⟨rfl, fun x => rd16_append_le16 x v⟩, join16_toNat, fun x i lo hi hlo hhi => ?_⟩
  simp only [rd16, hlo, hhi, join16]

/-- Settles O37: the port's answer to a word that decodes to nothing. -/
theorem undefinedCommandWord : Obligations.UndefinedCommandWord := by
  intro s w rest htodo hw
  have hundef : ∀ i, decode (.command w) ≠ .ok i := by simp [decode_undefined_command hw]
  exact ⟨_, (step_cons htodo).trans (hostStep_undefined_command hundef), rfl⟩

/-! ### The encoder commands, through one build -/

/-- The common end of the encoder commands: the frame of a code, PIN and a payload, or FrameTooLong (41_frame_encoder.md R90, R93). -/
def emitFrame (op : Byte) (p : List Byte) (s : State) : Result :=
  if frameFits s.cfg p.length then .next (s.putFrame (frame op s.pin p)) else .next (s.fail .encoder .frameTooLong)

theorem emitFrame_of_fits {op : Byte} {p : List Byte} {s : State} (h : frameFits s.cfg p.length = true) :
    emitFrame op p s = .next (s.putFrame (frame op s.pin p)) := if_pos h

theorem exec_encFrame_of_message {s : State} {p : List Byte} (h : s.message = some p) :
    exec .encFrame s = emitFrame s.op p s := by
  have hlen : p.length = s.ilen := Memory.getAll_length h
  simp only [exec, execEncFrame, h, emitFrame, hlen]

theorem exec_encRead (s : State) : exec .encRead s = emitFrame opcRead readPayload s := rfl

theorem exec_encWrite_of_entries {s : State} {es : List DcbEntry} (h : s.entries = some es) :
    exec .encWrite s = emitFrame opcWrite (serPayload es) s := by
  obtain ⟨-, hlen, hok⟩ := State.entries_ok h
  simp only [exec, execEncWrite, h, buildWrite, if_neg (Nat.not_lt.mpr hlen), hok, if_true, emitFrame,
    serPayload_length hok]
  cases frameFits s.cfg (serLength es) <;> rfl

/-- What an encoder command delivers by a build depends on the parameters and PIN alone, and not on which command it is. -/
theorem delivered_emitFrame {i j : Instr} (hi : isEncoderCommand i = true) (hj : isEncoderCommand j = true)
    {s u : State} (hcfg : u.cfg = s.cfg) (hpin : u.pin = s.pin) (op : Byte) (p : List Byte) :
    outcomeView (delivered i) (emitFrame op p s) = outcomeView (delivered j) (emitFrame op p u) := by
  simp only [emitFrame, hcfg, hpin]
  split <;> simp [outcomeView, delivered, not_crc_of_encoder, not_decoder_of_encoder, hi, hj, Memory.getAll_setAll,
    -frame_length]

/-- Settles O19: the pseudo-instruction and its expansion make the same build. -/
theorem pseudoInstructionsExpand : Obligations.PseudoInstructionsExpand := by
  intro s u hcfg hpin
  refine ⟨fun hop hm => ?_, fun es hes hop hm => ?_⟩
  · rw [exec_encRead, exec_encFrame_of_message hm, hop]
    exact delivered_emitFrame rfl rfl hcfg hpin opcRead readPayload
  · have hpayload : s.ecnt :: es.flatMap (fun e => le16 e.position ++ [e.length] ++ e.value) = serPayload es := by
      rw [serPayload_eq_flatMap, (State.entries_ok hes).1, BitVec.ofNat_toNat, BitVec.setWidth_eq]
    rw [exec_encWrite_of_entries hes, exec_encFrame_of_message (hm.trans (congrArg some hpayload)), hop]
    exact delivered_emitFrame rfl rfl hcfg hpin opcWrite (serPayload es)

/-! ### Runs of host actions -/

/-- The host actions, run one a step, lead from `s` to `t`, whatever the host does after them. -/
def Performs (acts : List HostAction) (s t : State) : Prop :=
  ∀ (rest : List HostAction) (n : Nat),
    Host.Core.run Sys2Proof.core (acts.length + n) (s.withTodo (acts ++ rest)) = Host.Core.run Sys2Proof.core n (t.withTodo rest)

theorem Performs.nil (s : State) : Performs [] s s := fun rest n => by
  rw [List.length_nil, Nat.zero_add, List.nil_append]

theorem Performs.single {act : HostAction} {s t : State}
    (h : ∀ l, hostStep act (s.withTodo l) = .next (t.withTodo l)) : Performs [act] s t := fun rest n => by
  have hstep : Sys2Proof.core.step (s.withTodo (act :: rest)) = .next (t.withTodo rest) := h rest
  rw [List.length_singleton, Nat.add_comm, List.singleton_append]
  simp only [Host.Core.run, hstep]

theorem Performs.append {as bs : List HostAction} {s t u : State} (h : Performs as s t) (h' : Performs bs t u) :
    Performs (as ++ bs) s u := fun rest n => by
  rw [List.length_append, Nat.add_assoc, List.append_assoc, h, h']

theorem Performs.cons {act : HostAction} {as : List HostAction} {s t u : State}
    (h : ∀ l, hostStep act (s.withTodo l) = .next (t.withTodo l)) (h' : Performs as t u) : Performs (act :: as) s u :=
  (Performs.single h).append h'

theorem Performs.run {acts rest : List HostAction} {s t : State} (h : Performs acts s t) (htodo : s.todo = acts ++ rest) :
    Host.Core.run Sys2Proof.core acts.length s = .next (t.withTodo rest) := by
  have hs : s = s.withTodo (acts ++ rest) := by rw [← htodo]; rfl
  rw [hs]
  exact h rest 0

/-! What a host write and a command word do to the state whose action list has moved on. -/

theorem hostStep_command {w : Byte} {i : Instr} (h : decode (.command w) = .ok i) (s : State) :
    hostStep (.issue (.command w)) s = exec i (s.latch w) := by
  simp only [hostStep, issue, h]

theorem hostStep_writeIlen {n : Nat} {s : State} (h : n ≤ s.cfg.ibufCap) :
    hostStep (.writeIlen n) s = .next { s with ilen := n } := by
  simp only [hostStep, if_pos h]

theorem hostStep_writeIbuf {a : Nat} {s : State} (h : a < s.cfg.ibufCap) (b : Byte) :
    hostStep (.writeIbuf a b) s = .next { s with ibuf := Memory.set s.ibuf a b } := by
  simp [hostStep, writeWithin, h]

theorem hostStep_writeEntPos {j : Nat} (h : j < 255) (w : Word) (s : State) :
    hostStep (.writeEntPos j w) s = .next { s with entPos := Memory.set s.entPos j w } := by
  simp [hostStep, writeWithin, Config.entCap, h]

theorem hostStep_writeEntLen {j : Nat} (h : j < 255) (b : Byte) (s : State) :
    hostStep (.writeEntLen j b) s = .next { s with entLen := Memory.set s.entLen j b } := by
  simp [hostStep, writeWithin, Config.entCap, h]

theorem hostStep_writeEntVal {j i : Nat} (hj : j < 255) (hi : i < 255) (b : Byte) (s : State) :
    hostStep (.writeEntVal j i b) s = .next { s with entVal := Memory.set s.entVal (entValKey j i) b } := by
  simp [hostStep, writeWithin, Config.entCap, Config.valCap, hj, hi]

/-! ### The line CRC.SUM -/

@[simp] theorem fillActions_length (f : List Byte) (a : Nat) : (fillActions a f).length = f.length := by
  induction f generalizing a with
  | nil => rfl
  | cons b f ih => rw [fillActions, List.length_cons, List.length_cons, ih]

theorem performs_fillActions (f : List Byte) {a : Nat} {s : State} (hcap : a + f.length ≤ s.cfg.ibufCap) :
    Performs (fillActions a f) s { s with ibuf := Memory.setAll s.ibuf a f } := by
  induction f generalizing a s with
  | nil => exact .nil s
  | cons b f ih =>
    rw [List.length_cons] at hcap
    have hin : a < s.cfg.ibufCap := by omega
    have htail : a + 1 + f.length ≤ s.cfg.ibufCap := by omega
    exact .cons (t := { s with ibuf := Memory.set s.ibuf a b }) (fun l => hostStep_writeIbuf (s := s.withTodo l) hin b) (ih htail)

/-- The host has loaded a message: its bytes stand in IBUF from address 0, and ILEN is their number (30_encoding.md R64). -/
def State.putMessage (f : List Byte) (s : State) : State :=
  { s with ibuf := Memory.setAll s.ibuf 0 f, ilen := f.length }

theorem State.message_putMessage (f : List Byte) (s : State) : (s.putMessage f).message = some f :=
  Memory.getAll_setAll s.ibuf 0 f

theorem performs_loadActions (f : List Byte) {s : State} (hcap : f.length ≤ s.cfg.ibufCap) :
    Performs (loadActions f) s (s.putMessage f) :=
  (performs_fillActions f (by omega)).append (.single fun _ => hostStep_writeIlen hcap)

theorem exec_crcSum_of_message {s : State} {m : List Byte} (h : s.message = some m) :
    exec .crcSum s = .next (s.putCrc (crc16 m)) := by
  simp only [exec, execCrcSum, h]

/-- Settles O40: the load, then CRC.SUM on the message just loaded. -/
theorem lineCrcSumChecksums : Obligations.LineCrcSumChecksums := by
  intro s f rest hcap htodo
  have hm : (s.putMessage f).message = some f := State.message_putMessage f s
  have hsum : Performs [.issue (.command 0x02)] (s.putMessage f) (((s.putMessage f).latch 0x02).putCrc (crc16 f)) :=
    .single fun l => (hostStep_command rfl _).trans (exec_crcSum_of_message hm)
  have hrun := ((performs_loadActions f hcap).append hsum).run htodo
  rw [List.length_append, loadActions, List.length_append, fillActions_length] at hrun
  exact ⟨_, hrun, rfl, rfl, rfl, rfl, hm, rfl, rfl, rfl⟩

/-! ### The line ENC.WRITE -/

/-- The VAL bytes of entries j, j+1, … written to ENT. -/
def setValues (m : Memory Byte) (j : Nat) : List DcbEntry → Memory Byte
  | [] => m
  | e :: es => setValues (Memory.setAll m (entValKey j 0) e.value) (j + 1) es

/-- The state whose ENT holds the entries from entry j upwards. -/
def State.putEntries (j : Nat) (es : List DcbEntry) (s : State) : State :=
  { s with
    entPos := Memory.setAll s.entPos j (es.map DcbEntry.position)
    entLen := Memory.setAll s.entLen j (es.map DcbEntry.length)
    entVal := setValues s.entVal j es }

theorem performs_valueActions (v : List Byte) {j i : Nat} {s : State} (hj : j < 255) (hi : i + v.length ≤ 255) :
    Performs (valueActions j i v) s { s with entVal := Memory.setAll s.entVal (entValKey j i) v } := by
  induction v generalizing i s with
  | nil => exact .nil s
  | cons b v ih =>
    rw [List.length_cons] at hi
    exact .cons (t := { s with entVal := Memory.set s.entVal (entValKey j i) b })
      (fun _ => hostStep_writeEntVal hj (by omega) b _) (ih (by omega))

theorem performs_entryActions (es : List DcbEntry) {j : Nat} {s : State} (hj : j + es.length ≤ 255)
    (hok : es.all entryOk = true) : Performs (entryActions j es) s (s.putEntries j es) := by
  induction es generalizing j s with
  | nil => exact .nil s
  | cons e es ih =>
    rw [List.length_cons] at hj
    obtain ⟨he, hes⟩ := Bool.and_eq_true_iff.mp (List.all_cons.symm.trans hok)
    have hin : j < 255 := by omega
    have hvalue : 0 + e.value.length ≤ 255 := by
      have := e.length.isLt
      rw [(entryOk_iff e).mp he]; omega
    have htail : j + 1 + es.length ≤ 255 := by omega
    have hvals := performs_valueActions (s := { s with
      entPos := Memory.set s.entPos j e.position, entLen := Memory.set s.entLen j e.length }) e.value hin hvalue
    exact .cons (t := { s with entPos := Memory.set s.entPos j e.position })
      (fun _ => hostStep_writeEntPos hin e.position _)
      (.cons (fun _ => hostStep_writeEntLen hin e.length _) (hvals.append (ih htail hes)))

/-- The VAL bytes of later entries stand above those of earlier ones. -/
theorem get_setValues_below (es : List DcbEntry) (m : Memory Byte) {j a : Nat} (ha : a < entValKey j 0) :
    Memory.get (setValues m j es) a = Memory.get m a := by
  induction es generalizing m j with
  | nil => rfl
  | cons e es ih =>
    have hnext : a < entValKey (j + 1) 0 := by simp only [entValKey, Config.valCap] at ha ⊢; omega
    rw [setValues, ih _ hnext, Memory.get_setAll, if_neg (by omega)]

/-- The first entry written reads back: the later ones leave it alone. -/
theorem State.entry_putEntries {e : DcbEntry} (he : entryOk e = true) (j : Nat) (es : List DcbEntry) (s : State) :
    (s.putEntries j (e :: es)).entry j = some e := by
  have hlen := (entryOk_iff e).mp he
  have hval : Memory.getAll (s.putEntries j (e :: es)).entVal (entValKey j 0) e.length.toNat = some e.value := by
    rw [← hlen, ← Memory.getAll_setAll s.entVal (entValKey j 0) e.value]
    refine Memory.getAll_congr fun i hi => get_setValues_below es _ ?_
    have := e.length.isLt
    simp only [entValKey, Config.valCap]; omega
  have hpos : Memory.get (s.putEntries j (e :: es)).entPos j = some e.position := by
    simp [State.putEntries, Memory.get_setAll]
  have hlenField : Memory.get (s.putEntries j (e :: es)).entLen j = some e.length := by
    simp [State.putEntries, Memory.get_setAll]
  simp only [State.entry, hpos, hlenField, hval]

theorem State.entriesFrom_putEntries {es : List DcbEntry} (hok : es.all entryOk = true) (j : Nat) (s : State) :
    (s.putEntries j es).entriesFrom j es.length = some es := by
  induction es generalizing j s with
  | nil => rfl
  | cons e es ih =>
    obtain ⟨he, hes⟩ := Bool.and_eq_true_iff.mp (List.all_cons.symm.trans hok)
    have htail : (s.putEntries j (e :: es)).entriesFrom (j + 1) es.length = some es := ih hes (j + 1) (s.putEntries j [e])
    rw [List.length_cons, State.entriesFrom, State.entry_putEntries he, htail]

/-- The host has written the operands of ENC.WRITE: PIN, the entries to ENT, their number to ECNT (30_encoding.md R64). -/
def State.putWriteOperands (pin : Word) (es : List DcbEntry) (s : State) : State :=
  { s.putEntries 0 es with pin := pin, ecnt := BitVec.ofNat 8 es.length }

/-- ENC.WRITE reads back exactly the entries the host has written. -/
theorem State.entries_putWriteOperands {es : List DcbEntry} (hlen : es.length ≤ 255) (hok : es.all entryOk = true)
    (pin : Word) (s : State) : (s.putWriteOperands pin es).entries = some es := by
  have hcount : (BitVec.ofNat 8 es.length).toNat = es.length := by rw [BitVec.toNat_ofNat]; omega
  rw [State.entries, State.putWriteOperands, hcount, ← State.entriesFrom_putEntries hok 0 s]
  exact State.entriesFrom_congr fun _ _ _ => rfl

/-- ENC.WRITE issued on a list of entries that fits builds their write request. -/
theorem performs_encWrite {s : State} {es : List DcbEntry} (hes : s.entries = some es)
    (hfits : frameFits s.cfg (serPayload es).length = true) :
    Performs [.issue (.command 0x06)] s ((s.latch 0x06).putFrame (frame opcWrite s.pin (serPayload es))) := by
  refine .single fun l => (hostStep_command rfl _).trans ?_
  have hsame : sameEntries s ((s.withTodo l).latch 0x06) := sameEntries_refl s
  exact (exec_encWrite_of_entries ((State.entries_congr hsame).trans hes)).trans (emitFrame_of_fits hfits)

/-- Settles O41: PIN, the entries and ECNT are written, then ENC.WRITE builds from what it reads back. -/
theorem lineEncWriteBuilds : Obligations.LineEncWriteBuilds := by
  intro s pin es rest hlen hvals hmax hcap htodo
  have hok : es.all entryOk = true := by simpa using hvals
  have hfits : frameFits s.cfg (serPayload es).length = true := by
    rw [serPayload_length hok, frameFits_iff, serLength]
    omega
  have hent : Performs (entryActions 0 es) { s with pin := pin } (({ s with pin := pin } : State).putEntries 0 es) :=
    performs_entryActions es (by omega) hok
  have hcmd := performs_encWrite (State.entries_putWriteOperands hlen hok pin s) hfits
  have hline : Performs (lineActions (.encWrite pin es)) s _ :=
    .cons (fun _ => rfl) (hent.append (.cons (fun _ => rfl) hcmd))
  refine ⟨_, hline.run htodo, rfl, rfl, rfl, rfl, rfl, ?_⟩
  rw [← serPayload_eq_flatMap]
  exact Memory.getAll_setAll _ 0 _

end Sys2Proof.Machine

/-! PROOFS of the family 40_crc: what each CRC command computes, and a message streamed through DATA byte by byte. -/

namespace Sys2Proof.Machine

/-! ### The commands of the CRC unit -/

theorem exec_crcInit (s : State) : exec .crcInit s = .next (s.putCrc 0xFFFF) := rfl

theorem exec_crcByte (s : State) : exec .crcByte s = .next (s.putCrc (crcByteStep s.crc s.data)) := rfl

/-- Taking four bits of a byte and masking it with 0xF are the same (40_crc.md R81). -/
theorem loNibble_eq_mask (b : Byte) : loNibble b = (b &&& 0xF).setWidth 4 := by
  rw [loNibble, BitVec.setWidth_and]
  exact BitVec.and_allOnes.symm

theorem crc16_append_byte (m : List Byte) (b : Byte) : crc16 (m ++ [b]) = crcByteStep (crc16 m) b := crc16_append m [b]

/-! ### A streamed message -/

/-- The CRC unit between two bytes of a stream: its register, and what DATA and CMD were last written with. -/
def State.inStream (c : Word) (d w : Byte) (s : State) : State :=
  { s with crc := c, data := d, cmd := w, status := statusOk }

theorem performs_crcInit (s : State) : Performs [.issue (.command 0x00)] s (s.inStream 0xFFFF s.data 0x00) :=
  .single fun l => (hostStep_command rfl _).trans (exec_crcInit ((s.withTodo l).latch 0x00))

theorem performs_streamByte (b : Byte) (c : Word) (d w : Byte) (s : State) :
    Performs (streamByte b) (s.inStream c d w) (s.inStream (crcByteStep c b) b 0x01) :=
  .cons (t := s.inStream c b w) (fun _ => rfl)
    (.single fun l => (hostStep_command rfl _).trans (exec_crcByte (((s.inStream c b w).withTodo l).latch 0x01)))

/-- Streaming bytes folds the byte step over `crc`; only DATA and CMD change beside it. -/
theorem performs_streamBytes (m : List Byte) (c : Word) (d w : Byte) (s : State) :
    ∃ d' w', Performs (m.flatMap streamByte) (s.inStream c d w) (s.inStream (m.foldl crcByteStep c) d' w') := by
  induction m generalizing c d w with
  | nil => exact ⟨d, w, .nil _⟩
  | cons b m ih =>
    obtain ⟨d', w', htail⟩ := ih (crcByteStep c b) b 0x01
    exact ⟨d', w', (performs_streamByte b c d w s).append htail⟩

theorem performs_streamActions (m : List Byte) (s : State) :
    ∃ d w, Performs (streamActions m) s (s.inStream (crc16 m) d w) := by
  obtain ⟨d, w, hbytes⟩ := performs_streamBytes m 0xFFFF s.data 0x00 s
  exact ⟨d, w, (performs_crcInit s).append hbytes⟩

theorem streamActions_length (m : List Byte) : (streamActions m).length = 1 + 2 * m.length := by
  simp only [streamActions, streamByte, List.length_cons, List.length_nil, List.length_flatMap, List.map_const',
    List.sum_replicate, smul_eq_mul]
  omega

/-- Settles O7: the stream folds the byte step from 0xFFFF, which is `crc16`, and CRC.SUM computes `crc16`. -/
theorem streamedChecksumEqualsSum : Obligations.StreamedChecksumEqualsSum := by
  intro s m rest htodo
  obtain ⟨d, w, hstream⟩ := performs_streamActions m s
  have hrun := hstream.run htodo
  rw [streamActions_length] at hrun
  exact ⟨_, hrun, rfl, rfl, rfl, rfl, rfl, rfl, rfl, rfl, rfl, rfl, fun _ hm => exec_crcSum_of_message hm⟩

/-- Settles O4: the command's equation, with the low nibble written as a mask. -/
theorem crcByteTwoNibbleSteps : Obligations.CrcByteTwoNibbleSteps := by
  refine ⟨fun s => ?_, by decide, by decide, by decide, by decide⟩
  rw [exec_crcByte, crcByteStep, loNibble_eq_mask]
  rfl

/-- Settles O5: the command's equation. -/
theorem crcInitSetsInitialValue : Obligations.CrcInitSetsInitialValue := exec_crcInit

/-- Settles O6: CRC.SUM on a message it can read; `crc16` is a left fold, so it obeys the two equations. -/
theorem crcSumOfMessage : Obligations.CrcSumOfMessage :=
  ⟨fun _ _ hm => exec_crcSum_of_message hm, crc16_nil, crc16_append_byte, by decide⟩

end Sys2Proof.Machine

/-! PROOFS of the family 41_frame_encoder: the frame each encoder command builds in OBUF from the operands it reads, and the fields
of every frame it emits. -/

namespace Sys2Proof.Machine

/-! ### The fields of a built frame -/

/-- The covered bytes of a frame with a payload of `n` bytes, as the statements spell them (41_frame_encoder.md R90). -/
theorem frameBody_of_length {p : List Byte} {n : Nat} (hn : p.length = n) (op : Byte) (pin : Word) :
    frameBody op pin p = [op] ++ le16 (BitVec.ofNat 16 (n + 7)) ++ le16 pin ++ p := by
  rw [frameBody, totalLength, hn, show 5 + n + 2 = n + 7 by omega]

theorem frame_code (op : Byte) (pin : Word) (p : List Byte) : (frame op pin p)[0]? = some op := rfl

theorem rd16_frame_length (op : Byte) (pin : Word) (p : List Byte) :
    rd16 (frame op pin p) 1 = some (BitVec.ofNat 16 (p.length + 7)) := by
  rw [frame, frameBody_of_length rfl]
  exact congrArg some (join16_lo8_hi8 _)

theorem rd16_frame_pin (op : Byte) (pin : Word) (p : List Byte) : rd16 (frame op pin p) 3 = some pin :=
  congrArg some (join16_lo8_hi8 pin)

theorem frame_take_body (op : Byte) (pin : Word) (p : List Byte) :
    (frame op pin p).take (p.length + 5) = frameBody op pin p := by
  rw [← frameBody_length op pin p, frame, List.take_left]

theorem rd16_frame_checksum (op : Byte) (pin : Word) (p : List Byte) :
    rd16 (frame op pin p) (p.length + 5) = some (crc16 ((frame op pin p).take (p.length + 5))) := by
  rw [frame_take_body, ← frameBody_length op pin p]
  exact rd16_append_le16 _ _

theorem frame_payload (op : Byte) (pin : Word) (p : List Byte) : ((frame op pin p).drop 5).take p.length = p :=
  List.take_left (l₂ := le16 (crc16 (frameBody op pin p)))

/-! ### The two ends of a build -/

theorem frameFits_eq_false_iff (c : Config) (n : Nat) :
    frameFits c n = false ↔ 65535 < 5 + n + 2 ∨ c.obufCap < 5 + n + 2 := by
  rw [← Bool.not_eq_true, frameFits_iff]
  omega

/-- A build that fits, with the frame's bytes `f` before the checksum and its length written out. -/
theorem emitFrame_builds {op : Byte} {p f : List Byte} {n : Nat} {s : State} (hn : p.length = n)
    (hf : f = [op] ++ le16 (BitVec.ofNat 16 (n + 7)) ++ le16 s.pin ++ p)
    (hmax : 5 + n + 2 ≤ 65535) (hcap : 5 + n + 2 ≤ s.cfg.obufCap) :
    emitFrame op p s =
      .next { s with obuf := Memory.setAll s.obuf 0 (f ++ le16 (crc16 f)), olen := n + 7, status := 0x00 } := by
  have hfits : frameFits s.cfg p.length = true := (frameFits_iff _ _).mpr (by omega)
  have hbody : frameBody op s.pin p = f := (frameBody_of_length hn op s.pin).trans hf.symm
  rw [emitFrame_of_fits hfits, State.putFrame, frame_length, frame, hbody, hn]
  rfl

theorem emitFrame_tooLong {p : List Byte} {n : Nat} {s : State} (hn : p.length = n)
    (h : 65535 < 5 + n + 2 ∨ s.cfg.obufCap < 5 + n + 2) (op : Byte) :
    emitFrame op p s = .next { s with status := 0x10, olen := 0 } := by
  rw [emitFrame, hn, (frameFits_eq_false_iff _ _).mpr h]
  rfl

/-- A build with STATUS OK fits and leaves its frame (41_frame_encoder.md R93: a failing one leaves a failure code). -/
theorem emitFrame_ok {op : Byte} {p : List Byte} {s t : State} (h : emitFrame op p s = .next t) (hok : t.status = 0x00) :
    frameFits s.cfg p.length = true ∧ t = s.putFrame (frame op s.pin p) := by
  unfold emitFrame at h
  split at h <;> cases h
  case isTrue hfits => exact ⟨hfits, rfl⟩
  case isFalse => exact absurd hok (failureCode_ne_ok .frameTooLong)

/-! ### The operands each encoder command reads -/

/-- What an encoder command builds its frame from: the operation code and the payload (41_frame_encoder.md R90 to R92). -/
inductive EncoderOperands (s : State) : Instr → Byte → List Byte → Prop where
  | frame {p : List Byte} (hm : s.message = some p) : EncoderOperands s .encFrame s.op p
  | read : EncoderOperands s .encRead opcRead readPayload
  | write {es : List DcbEntry} (hes : s.entries = some es) : EncoderOperands s .encWrite opcWrite (serPayload es)

theorem EncoderOperands.exec_eq {i : Instr} {s : State} {op : Byte} {p : List Byte} (h : EncoderOperands s i op p) :
    exec i s = emitFrame op p s := by
  cases h with
  | frame hm => exact exec_encFrame_of_message hm
  | read => exact exec_encRead s
  | write hes => exact exec_encWrite_of_entries hes

/-- ENC.FRAME tests the length before it reads the payload (log 10). -/
theorem exec_encFrame_tooLong {s : State} (h : 65535 < 5 + s.ilen + 2 ∨ s.cfg.obufCap < 5 + s.ilen + 2) :
    exec .encFrame s = .next { s with status := 0x10, olen := 0 } := by
  simp only [exec, execEncFrame, (frameFits_eq_false_iff _ _).mpr h]
  rfl

theorem message_of_encFrame_ok {s t : State} (h : exec .encFrame s = .next t) (hok : t.status = 0x00) :
    ∃ p, s.message = some p := by
  simp only [exec, execEncFrame] at h
  split at h
  · split at h
    next p hm => exact ⟨p, hm⟩
    next => cases h
  · cases h
    exact absurd hok (failureCode_ne_ok .frameTooLong)

theorem entries_of_encWrite_next {s t : State} (h : exec .encWrite s = .next t) : ∃ es, s.entries = some es := by
  cases hes : s.entries with
  | none => simp [exec, execEncWrite, hes] at h
  | some es => exact ⟨es, rfl⟩

/-- An encoder command that ends with STATUS OK has read all its operands. -/
theorem encoderOperands_of_ok {i : Instr} {s t : State} (hi : isEncoderCommand i = true) (h : exec i s = .next t)
    (hok : t.status = 0x00) : ∃ op p, EncoderOperands s i op p := by
  cases i with
  | encFrame =>
    obtain ⟨p, hm⟩ := message_of_encFrame_ok h hok
    exact ⟨_, _, .frame hm⟩
  | encRead => exact ⟨_, _, .read⟩
  | encWrite =>
    obtain ⟨es, hes⟩ := entries_of_encWrite_next h
    exact ⟨_, _, .write hes⟩
  | _ => cases hi

/-! ### The entry list -/

/-- The payload of ENC.WRITE begins with ECNT itself. -/
theorem serPayload_of_entries {s : State} {es : List DcbEntry} (h : s.entries = some es) :
    serPayload es = s.ecnt :: es.flatMap fun e => le16 e.position ++ [e.length] ++ e.value := by
  rw [serPayload_eq_flatMap, (State.entries_ok h).1, BitVec.ofNat_toNat, BitVec.setWidth_eq]

theorem State.entry_eq_some {s : State} {j : Nat} {e : DcbEntry} (hpos : Memory.get s.entPos j = some e.position)
    (hlen : Memory.get s.entLen j = some e.length)
    (hval : Memory.getAll s.entVal (255 * j) e.length.toNat = some e.value) : s.entry j = some e := by
  have hkey : entValKey j 0 = 255 * j := rfl
  simp only [State.entry, hpos, hlen, hkey, hval]

/-- A list that ENT holds entry by entry is what is read from it. -/
theorem State.entriesFrom_eq_some {s : State} {es : List DcbEntry} {j : Nat}
    (h : ∀ i e, es[i]? = some e → s.entry (j + i) = some e) : s.entriesFrom j es.length = some es := by
  induction es generalizing j with
  | nil => rfl
  | cons e es ih =>
    have hhead : s.entry j = some e := h 0 e rfl
    have htail : s.entriesFrom (j + 1) es.length = some es :=
      ih fun i e' he' => by
        rw [Nat.add_right_comm]
        exact h (i + 1) e' he'
    rw [List.length_cons, State.entriesFrom, hhead, htail]

/-! ### The statements -/

/-- Settles O13: the length test comes first; past it the command is a build of the payload it reads. -/
theorem encFrameBuildsFrame : Obligations.EncFrameBuildsFrame := by
  refine fun s => ⟨exec_encFrame_tooLong, fun p f hmax hcap hm hf => ?_⟩
  rw [exec_encFrame_of_message hm]
  exact emitFrame_builds (Memory.getAll_length hm) hf hmax hcap

/-- Settles O15: the entries ENT holds are read back, so the command is a build of their serialisation. -/
theorem encWriteBuildsRequest : Obligations.EncWriteBuildsRequest := by
  intro s es n f hcount hent hn hf
  have hes : s.entries = some es := by
    rw [State.entries, ← hcount]
    refine State.entriesFrom_eq_some fun j e he => ?_
    obtain ⟨hpos, hlen, hval⟩ := hent j e he
    rw [Nat.zero_add]
    exact State.entry_eq_some hpos hlen hval
  obtain ⟨-, -, hok⟩ := State.entries_ok hes
  have hlen : (serPayload es).length = n := (serPayload_length hok).trans hn.symm
  have hbytes : f = [opcWrite] ++ le16 (BitVec.ofNat 16 (n + 7)) ++ le16 s.pin ++ serPayload es := by
    rw [hf, serPayload_of_entries hes, List.append_assoc, List.singleton_append]
    rfl
  rw [exec_encWrite_of_entries hes]
  exact ⟨fun ⟨hmax, hcap⟩ => emitFrame_builds hlen hbytes hmax hcap, fun hlong => emitFrame_tooLong hlen hlong opcWrite⟩

/-- Settles O14: the build of the fixed payload, whose frame has eleven bytes. -/
theorem encReadBuildsRequest : Obligations.EncReadBuildsRequest := by
  intro s f hf
  rw [exec_encRead]
  exact ⟨fun hcap => emitFrame_builds (n := 4) rfl hf (by decide) hcap,
    fun hcap => emitFrame_tooLong (n := 4) rfl (.inr hcap) opcRead⟩

/-- Settles O17: an encoder command with STATUS OK has built the frame of its operands, and a frame's fields are what it was built
from. -/
theorem emittedFramesMeetInvariants : Obligations.EmittedFramesMeetInvariants := by
  intro i s t hi hexec hstatus
  obtain ⟨op, p, hops⟩ := encoderOperands_of_ok hi hexec hstatus
  obtain ⟨hfits, rfl⟩ := emitFrame_ok (hops.exec_eq.symm.trans hexec) hstatus
  obtain ⟨hmax, hcap⟩ := (frameFits_iff s.cfg p.length).mp hfits
  refine ⟨frame op s.pin p, Memory.getAll_setAll s.obuf 0 _, ?_⟩
  rw [State.putFrame_olen, frame_length, Nat.add_sub_cancel, frame_payload]
  refine ⟨by omega, hmax, hcap, rd16_frame_length op s.pin p, rd16_frame_pin op s.pin p, rd16_frame_checksum op s.pin p, ?_⟩
  cases hops with
  | frame hm => exact ⟨fun _ => ⟨frame_code _ _ _, hm.symm⟩, nofun, nofun⟩
  | read => exact ⟨nofun, fun _ => ⟨frame_code _ _ _, rfl⟩, nofun⟩
  | write hes =>
    have hpayload := serPayload_of_entries hes
    exact ⟨nofun, nofun, fun _ => ⟨frame_code _ _ _, by rw [hpayload]; rfl, _, hes, hpayload⟩⟩

end Sys2Proof.Machine

/-! PROOFS of the family 42_frame_decoder: the first check a frame fails decides how DEC.PARSE ends, a built frame parses back, and
one changed byte of an accepted frame fails the check that reads it. -/

namespace Sys2Proof.Machine

/-! ### The first failing check -/

/-- A frame and the kind its first failing check reports (42_frame_decoder.md R100, R102): the counterpart of `Accepted`. Only the
bytes read up to that check hold values for certain (log 10). -/
inductive FailsCheck (m : Memory Byte) (n : Nat) : Failure → Prop where
  | empty (hn : n = 0) : FailsCheck m n .invalidResponseCode
  | code {c : Byte} (hn : 1 ≤ n) (hcode : Memory.get m 0 = some c) (hne : c ≠ rspReadAck) :
    FailsCheck m n .invalidResponseCode
  | short (hn : 1 ≤ n) (hcode : Memory.get m 0 = some rspReadAck) (hshort : n < 3) : FailsCheck m n .lengthMismatch
  | length {len : Word} (hn : 3 ≤ n) (hcode : Memory.get m 0 = some rspReadAck) (hlen : Memory.get16 m 1 = some len)
      (hne : n < 9 ∨ len.toNat ≠ n) : FailsCheck m n .lengthMismatch
  | sum {len sent : Word} {covered : List Byte} (hn : 9 ≤ n) (hcode : Memory.get m 0 = some rspReadAck)
      (hlen : Memory.get16 m 1 = some len) (heq : len.toNat = n) (hsent : Memory.get16 m (n - 2) = some sent)
      (hcov : Memory.getAll m 0 (n - 2) = some covered) (hne : crc16 covered ≠ sent) : FailsCheck m n .checksumMismatch

section Verdicts
variable {m : Memory Byte} {n : Nat}

theorem FailsCheck.parseBuffer_eq {k : Failure} (h : FailsCheck m n k) : parseBuffer m n = some (.error k) := by
  cases h with
  | empty hn => rw [parseBuffer, if_pos (by omega)]
  | code hn hcode hne =>
    rw [parseBuffer, if_neg (by omega), hcode]
    exact if_neg hne
  | short hn hcode hshort => rw [parseBuffer_of_code hn hcode, checkLength, if_pos hshort]
  | length hn hcode hlen hne =>
    rw [parseBuffer_of_code (by omega) hcode, checkLength, if_neg (by omega), hlen]
    dsimp only
    split
    · rw [if_pos (by omega)]
    · rfl
  | sum hn hcode hlen heq hsent hcov hne =>
    rw [parseBuffer_of_code (by omega) hcode, checkLength_of_len hn hlen heq, checkSum, hsent, hcov]
    exact if_neg hne

theorem Accepted.parseBuffer_eq {h : RespHeader} {x : List Byte} (acc : Accepted m n h x) :
    parseBuffer m n = some (.ok (h, x)) := by
  obtain ⟨hcode, hhcode⟩ := acc.code
  obtain ⟨hlen, heq⟩ := acc.len
  obtain ⟨covered, hcov, hsum⟩ := acc.sum
  have hlong := acc.long
  rw [parseBuffer_of_code (by omega) hcode, checkLength_of_len hlong hlen heq]
  simp only [checkSum, hcov, hsum, readResponse, acc.start, acc.count, acc.slice, if_true, ← hhcode]

end Verdicts

theorem exec_decParse_of_failsCheck {s : State} {k : Failure} (h : FailsCheck s.ibuf s.ilen k) :
    exec .decParse s = .next (s.fail .decoder k) := by
  simp only [exec, execDecParse, h.parseBuffer_eq, deliver]

theorem exec_decParse_of_accepted {s : State} {h : RespHeader} {x : List Byte} (acc : Accepted s.ibuf s.ilen h x)
    (hcap : x.length ≤ s.cfg.obufCap) : exec .decParse s = .next (s.putResponse h x) := by
  simp only [exec, execDecParse, acc.parseBuffer_eq, deliver, if_pos hcap]

/-- Settles O21: an empty frame fails the first check, a frame of at most two bytes or of at most eight the second. -/
theorem shortFramesRejected : Obligations.ShortFramesRejected := by
  refine fun s => ⟨fun hn => ?_, fun hn hcode => ?_, fun hn hshort hcode hlen => ?_⟩
  · exact exec_decParse_of_failsCheck (.empty hn)
  · exact exec_decParse_of_failsCheck (.short (by omega) hcode (by omega))
  · exact exec_decParse_of_failsCheck (.length hn hcode hlen (.inl (by omega)))

/-! ### A written frame, byte by byte -/

theorem Memory.get_of_getAll {α : Type} {m : Memory α} {n i : Nat} {f : List α} (h : Memory.getAll m 0 n = some f)
    (hi : i < n) : Memory.get m i = f[i]? := by
  rw [← (Memory.getAll_iff.mp h).2 i hi, Nat.zero_add]

theorem Memory.getAll_take {α : Type} {m : Memory α} {n k : Nat} {f : List α} (h : Memory.getAll m 0 n = some f)
    (hk : k ≤ n) : Memory.getAll m 0 k = some (f.take k) :=
  Memory.getAll_part (i := 0) h (by omega)

theorem rd16_of_lt {f : List Byte} {i : Nat} (hi : i + 1 < f.length) : rd16 f i = some (join16 f[i] f[i + 1]) := by
  rw [rd16, List.getElem?_eq_getElem hi, List.getElem?_eq_getElem (Nat.lt_of_succ_lt hi)]

/-- Settles O20: each clause's premises on the frame's bytes make its check the first to fail, or the frame accepted. -/
theorem decParseChecksInOrder : Obligations.DecParseChecksInOrder := by
  intro s f hf
  have hlen : f.length = s.ilen := Memory.getAll_length hf
  have hcode (h0 : f[0]? = some 0x94) (hn : 1 ≤ s.ilen) : Memory.get s.ibuf 0 = some rspReadAck :=
    (Memory.get_of_getAll hf hn).trans h0
  have hword {i : Nat} {w : Word} (hw : rd16 f i = some w) (hi : i + 2 ≤ s.ilen) : Memory.get16 s.ibuf i = some w :=
    (Memory.get16_of_getAll hf hi).trans hw
  have hcov : Memory.getAll s.ibuf 0 (s.ilen - 2) = some (f.take (s.ilen - 2)) := Memory.getAll_take hf (by omega)
  refine ⟨fun h0 => ?_, fun h0 hbad => ?_, fun len sent h0 hn hl heq hs hne => ?_,
    fun len start count hok hcap h0 hn hl heq hs hstart hcount => ?_⟩
  · refine exec_decParse_of_failsCheck (k := .invalidResponseCode) ?_
    rcases Nat.eq_zero_or_pos s.ilen with hz | hn
    · exact .empty hz
    · have hget : f[0]? = some f[0] := List.getElem?_eq_getElem (by omega)
      exact .code hn ((Memory.get_of_getAll hf hn).trans hget) fun hc => h0 (hget.trans (congrArg some hc))
  · refine exec_decParse_of_failsCheck (k := .lengthMismatch) ?_
    have hn : 1 ≤ s.ilen := by
      have := (List.getElem?_eq_some_iff.mp h0).1
      omega
    by_cases hshort : s.ilen < 3
    · exact .short hn (hcode h0 hn) hshort
    · have hl := rd16_of_lt (f := f) (i := 1) (by omega)
      exact .length (by omega) (hcode h0 hn) (hword hl (by omega)) (hbad.imp_right fun h => h _ hl)
  · exact exec_decParse_of_failsCheck
      (.sum hn (hcode h0 (by omega)) (hword hl (by omega)) heq (hword hs (by omega)) hcov hne)
  · have hslice : Memory.getAll s.ibuf 7 (s.ilen - 9) = some ((f.drop 7).take (s.ilen - 9)) :=
      Memory.getAll_part (a := 0) hf (i := 7) (by omega)
    have hx : ((f.drop 7).take (s.ilen - 9)).length = s.ilen - 9 := Memory.getAll_length hslice
    have acc : Accepted s.ibuf s.ilen { code := 0x94, len := len, start := start, count := count }
        ((f.drop 7).take (s.ilen - 9)) :=
      { code := ⟨hcode h0 (by omega), rfl⟩
        len := ⟨hword hl (by omega), heq⟩
        long := hn
        sum := ⟨_, hcov, hword hs (by omega)⟩
        start := hword hstart (by omega)
        count := hword hcount (by omega)
        slice := hslice }
    have := configOk_iff.mp hok
    rw [exec_decParse_of_accepted acc (by omega), State.putResponse, hx]
    rfl

/-! ### A built frame parses back -/

/-- The frame ENC.FRAME leaves in OBUF with STATUS OK is that of its operands, and its length fits the length field. -/
theorem encFrame_output {s t : State} {p f : List Byte} (hp : s.message = some p) (hexec : exec .encFrame s = .next t)
    (hok : t.status = 0x00) (hf : Memory.getAll t.obuf 0 t.olen = some f) :
    f = frame s.op s.pin p ∧ p.length + 7 ≤ 65535 := by
  obtain ⟨hfits, rfl⟩ := emitFrame_ok ((exec_encFrame_of_message hp).symm.trans hexec) hok
  have hback : Memory.getAll (s.putFrame (frame s.op s.pin p)).obuf 0 (s.putFrame (frame s.op s.pin p)).olen =
    some (frame s.op s.pin p) := Memory.getAll_setAll s.obuf 0 _
  exact ⟨Option.some.inj (hf.symm.trans hback), ((frameFits_iff _ _).mp hfits).1⟩

/-- The decoder's byteCount field is the first two payload bytes. -/
theorem rd16_frame_payload {p : List Byte} (hp : 2 ≤ p.length) (op : Byte) (pin : Word) :
    rd16 (frame op pin p) 5 = rd16 p 0 := by
  match p, hp with
  | _ :: _ :: _, _ => rfl

/-- The decoder's slice is the payload after its first two bytes. -/
theorem frame_slice (op : Byte) (pin : Word) (p : List Byte) :
    ((frame op pin p).drop 7).take (p.length - 2) = p.drop 2 := by
  calc ((frame op pin p).drop 7).take (p.length - 2)
      = (((frame op pin p).drop 5).take p.length).drop 2 := by rw [List.drop_take, List.drop_drop]
    _ = p.drop 2 := by rw [frame_payload]

/-- Settles O23: the fields of a built frame meet the premises of the decoder's clauses. -/
theorem buildThenParseRoundTrip : Obligations.BuildThenParseRoundTrip := by
  intro s t u p f hp hexec hok hf hu
  obtain ⟨rfl, hmax⟩ := encFrame_output hp hexec hok hf
  obtain ⟨hcode, hlength, -, haccept⟩ := decParseChecksInOrder u _ hu
  have hilen : u.ilen = p.length + 7 := (Memory.getAll_length hu).symm.trans (frame_length _ _ _)
  refine ⟨fun hop => hcode fun h0 => hop (Option.some.inj h0), fun hop hshort => ?_,
    fun count hcfg hcap hop hlong hcount => ?_⟩
  · exact hlength (congrArg some hop) (.inl (by omega))
  · have hlen : (BitVec.ofNat 16 (p.length + 7)).toNat = u.ilen := by
      rw [BitVec.toNat_ofNat]
      omega
    have hsum : rd16 (frame s.op s.pin p) (u.ilen - 2) = some (crc16 ((frame s.op s.pin p).take (u.ilen - 2))) := by
      rw [hilen]
      exact rd16_frame_checksum s.op s.pin p
    have hparse := haccept _ s.pin count hcfg hcap (congrArg some hop) (by omega) (rd16_frame_length s.op s.pin p) hlen
      hsum (rd16_frame_pin s.op s.pin p) ((rd16_frame_payload hlong s.op s.pin).trans hcount)
    rwa [show u.ilen - 9 = p.length - 2 by omega, frame_slice] at hparse

/-! ### What DEC.PARSE leaves unchanged -/

/-- Settles O22: an accepted frame's slice is what stands in OBUF, and a rejected one writes no buffer. -/
theorem decParseFrame : Obligations.DecParseFrame := by
  intro s t hexec
  have out : ParseOutcome s t := deliver_next hexec
  obtain ⟨hinputs, hcrc⟩ := out.keeps
  refine ⟨hinputs, hcrc, fun a => out.get_obuf_beyond, ?_⟩
  cases out with
  | accepted h x acc _ eq =>
    subst eq
    have hback : Memory.getAll (s.putResponse h x).obuf 0 (s.putResponse h x).olen = some x :=
      Memory.getAll_setAll s.obuf 0 x
    exact ⟨fun _ => ⟨acc.long, acc.slice_length, hback.trans acc.slice.symm⟩, fun hne => absurd rfl hne⟩
  | rejected k _ eq =>
    subst eq
    exact ⟨fun hok => absurd hok (failureCode_ne_ok k), fun _ => ⟨rfl, rfl, rfl⟩⟩

/-! ### The checksum detects one changed byte -/

theorem tableAt_lowNibble (i : Nibble) : (tableAt i).setWidth 4 = i := by
  revert i
  decide

/-- A nibble step leaves its table index in the register's low nibble, since the shift clears that nibble and entry `i` of the
table ends in `i` (10_state.md R11). -/
theorem nib_lowNibble (c : Word) (n : Nibble) : (nib c n).setWidth 4 = nibIndex c n := by
  have hshift : (c <<< 4).setWidth 4 = 0#4 := by
    apply BitVec.eq_of_toNat_eq
    simp only [BitVec.toNat_setWidth, BitVec.toNat_shiftLeft, Nat.shiftLeft_eq, BitVec.toNat_ofNat]
    omega
  rw [nib, BitVec.setWidth_xor, hshift, tableAt_lowNibble, BitVec.zero_xor]

/-- Nibble steps that end alike used the same table entry on the same low twelve bits. -/
theorem nib_eq_nib {c c' : Word} {n n' : Nibble} (h : nib c n = nib c' n') :
    nibIndex c n = nibIndex c' n' ∧ c <<< 4 = c' <<< 4 := by
  have hidx : nibIndex c n = nibIndex c' n' := by rw [← nib_lowNibble, ← nib_lowNibble, h]
  rw [nib, nib, hidx] at h
  exact ⟨hidx, BitVec.xor_left_inj _ |>.mp h⟩

theorem nib_nibble_injective {c : Word} {n n' : Nibble} (h : nib c n = nib c n') : n = n' :=
  BitVec.xor_right_inj _ |>.mp (nib_eq_nib h).1

theorem nib_register_injective {c c' : Word} {n : Nibble} (h : nib c n = nib c' n) : c = c' := by
  obtain ⟨hidx, hlow⟩ := nib_eq_nib h
  have htop : (c >>> 12).setWidth 4 = (c' >>> 12).setWidth 4 := BitVec.xor_left_inj _ |>.mp hidx
  have hlow := congrArg BitVec.toNat hlow
  have htop := congrArg BitVec.toNat htop
  have hc := c.isLt
  have hc' := c'.isLt
  simp only [BitVec.toNat_setWidth, BitVec.toNat_shiftLeft, BitVec.toNat_ushiftRight, Nat.shiftLeft_eq,
    Nat.shiftRight_eq_div_pow] at hlow htop
  apply BitVec.eq_of_toNat_eq
  omega

theorem crcByteStep_register_injective {c c' : Word} {b : Byte} (h : crcByteStep c b = crcByteStep c' b) : c = c' :=
  nib_register_injective (nib_register_injective h)

theorem byte_eq_of_nibbles {b b' : Byte} (hhi : hiNibble b = hiNibble b') (hlo : loNibble b = loNibble b') : b = b' := by
  have hb := b.isLt
  have hb' := b'.isLt
  have hhi := congrArg BitVec.toNat hhi
  have hlo := congrArg BitVec.toNat hlo
  simp only [hiNibble, loNibble, BitVec.toNat_setWidth, BitVec.toNat_ushiftRight, Nat.shiftRight_eq_div_pow] at hhi hlo
  apply BitVec.eq_of_toNat_eq
  omega

theorem lowNibble_of_shift {c c' : Word} (h : c <<< 4 = c' <<< 4) : c.setWidth 4 = c'.setWidth 4 := by
  have h := congrArg BitVec.toNat h
  simp only [BitVec.toNat_shiftLeft, Nat.shiftLeft_eq] at h
  apply BitVec.eq_of_toNat_eq
  simp only [BitVec.toNat_setWidth]
  omega

/-- The second nibble step keeps the index of the first, which tells the high nibbles apart; the index of the second tells the low
nibbles apart. -/
theorem crcByteStep_byte_injective {c : Word} {b b' : Byte} (h : crcByteStep c b = crcByteStep c b') : b = b' := by
  have hfirst : nibIndex c (hiNibble b) = nibIndex c (hiNibble b') := by
    rw [← nib_lowNibble, ← nib_lowNibble]
    exact lowNibble_of_shift (nib_eq_nib h).2
  have hhi : hiNibble b = hiNibble b' := BitVec.xor_right_inj _ |>.mp hfirst
  rw [crcByteStep, crcByteStep, hhi] at h
  exact byte_eq_of_nibbles hhi (nib_nibble_injective h)

theorem foldl_crcByteStep_injective {c c' : Word} {m : List Byte} (h : m.foldl crcByteStep c = m.foldl crcByteStep c') :
    c = c' := by
  induction m generalizing c c' with
  | nil => exact h
  | cons b m ih => exact crcByteStep_register_injective (ih h)

/-- Changing one byte of a message changes its checksum (42_frame_decoder.md R105, 93_implementation_defined.md U10). -/
theorem crc16_one_byte_injective {pre post : List Byte} {b b' : Byte}
    (h : crc16 (pre ++ b :: post) = crc16 (pre ++ b' :: post)) : b = b' := by
  rw [crc16_append, crc16_append] at h
  exact crcByteStep_byte_injective (foldl_crcByteStep_injective h)

theorem crc16_set_ne {f : List Byte} {i : Nat} {b b' : Byte} (hb : f[i]? = some b) (hne : b' ≠ b) :
    crc16 (f.set i b') ≠ crc16 f := by
  obtain ⟨hi, hget⟩ := List.getElem?_eq_some_iff.mp hb
  have hf : f = f.take i ++ b :: f.drop (i + 1) := by
    rw [← hget, ← List.drop_eq_getElem_cons hi, List.take_append_drop]
  have hset : f.set i b' = f.take i ++ b' :: f.drop (i + 1) := List.set_eq_take_append_cons_drop.trans (if_pos hi)
  intro h
  rw [hset] at h
  exact hne (crc16_one_byte_injective (h.trans (congrArg crc16 hf)))

/-! ### One changed byte of an accepted frame -/

theorem Memory.get16_set_of_ne (m : Memory Byte) {a i : Nat} (b : Byte) (h : a ≠ i) (h' : a + 1 ≠ i) :
    Memory.get16 (Memory.set m i b) a = Memory.get16 m a := by
  rw [Memory.get16, Memory.get16, Memory.get_set_of_ne m b h, Memory.get_set_of_ne m b h']

theorem Memory.get16_eq_some_iff {m : Memory Byte} {a : Nat} {v : Word} :
    Memory.get16 m a = some v ↔ Memory.get m a = some (lo8 v) ∧ Memory.get m (a + 1) = some (hi8 v) := by
  constructor
  · intro h
    unfold Memory.get16 at h
    split at h <;> cases h
    next lo hi hlo hhi => rw [lo8_join16, hi8_join16]; exact ⟨hlo, hhi⟩
  · rintro ⟨hlo, hhi⟩
    simp only [Memory.get16, hlo, hhi, join16_lo8_hi8]

/-- A two-byte field is another number after one of its bytes has changed. -/
theorem Memory.get16_set_ne {m : Memory Byte} {a i : Nat} {v : Word} {b b' : Byte} (hv : Memory.get16 m a = some v)
    (hi : i = a ∨ i = a + 1) (hb : Memory.get m i = some b) (hne : b' ≠ b) :
    ∃ v', Memory.get16 (Memory.set m i b') a = some v' ∧ v' ≠ v := by
  obtain ⟨hlo, hhi⟩ := Memory.get16_eq_some_iff.mp hv
  rcases hi with rfl | rfl
  · refine ⟨join16 b' (hi8 v), ?_, ?_⟩
    · simp [Memory.get16_eq_some_iff, Memory.get_set, hhi]
    · intro heq
      have hbv : lo8 v = b := Option.some.inj (hlo.symm.trans hb)
      exact hne ((lo8_join16 b' (hi8 v)).symm.trans ((congrArg lo8 heq).trans hbv))
  · refine ⟨join16 (lo8 v) b', ?_, ?_⟩
    · simp [Memory.get16_eq_some_iff, Memory.get_set, hlo]
    · intro heq
      have hbv : hi8 v = b := Option.some.inj (hhi.symm.trans hb)
      exact hne ((hi8_join16 (lo8 v) b').symm.trans ((congrArg hi8 heq).trans hbv))

/-- Writing one element of a range that reads as `f` changes that element of what is read. -/
theorem Memory.getAll_set {α : Type} {m : Memory α} {n i : Nat} {f : List α} (h : Memory.getAll m 0 n = some f)
    (hi : i < n) (v : α) : Memory.getAll (Memory.set m i v) 0 n = some (f.set i v) := by
  obtain ⟨hl, hg⟩ := Memory.getAll_iff.mp h
  refine Memory.getAll_iff.mpr ⟨by rw [List.length_set, hl], fun j hj => ?_⟩
  by_cases hji : j = i
  · subst hji
    rw [Nat.zero_add, Memory.get_set_same, List.getElem?_set_self (by omega)]
  · rw [Memory.get_set_of_ne m v (by omega), hg j hj, List.getElem?_set_ne (Ne.symm hji)]

/-- Writing one element outside a range leaves what is read of it. -/
theorem Memory.getAll_set_of_le {α : Type} (m : Memory α) {n i : Nat} (hi : n ≤ i) (v : α) :
    Memory.getAll (Memory.set m i v) 0 n = Memory.getAll m 0 n :=
  Memory.getAll_congr fun j hj => Memory.get_set_of_ne m v (by omega)

/-- The kind that a changed byte at an offset leads to (42_frame_decoder.md R105). -/
def mutationKind (i : Nat) : Failure :=
  if i = 0 then .invalidResponseCode else if i ≤ 2 then .lengthMismatch else .checksumMismatch

theorem failureCode_mutationKind (i : Nat) :
    failureCode (mutationKind i) = if i = 0 then 0x01 else if i ≤ 2 then 0x02 else 0x03 := by
  rw [mutationKind, apply_ite failureCode, apply_ite failureCode]
  rfl

section Mutation
variable {m : Memory Byte} {n i : Nat} {h : RespHeader} {x : List Byte} {b b' : Byte}

/-- A changed byte of the length field leaves another length than the frame has. -/
theorem Accepted.length_mutated (acc : Accepted m n h x) (hi : i = 1 ∨ i = 2) (hb : Memory.get m i = some b)
    (hne : b' ≠ b) : FailsCheck (Memory.set m i b') n .lengthMismatch := by
  obtain ⟨hlen, heq⟩ := acc.len
  obtain ⟨len', hlen', hdiff⟩ := Memory.get16_set_ne hlen hi hb hne
  have hcode : Memory.get (Memory.set m i b') 0 = some rspReadAck :=
    (Memory.get_set_of_ne m b' (by omega)).trans acc.code.1
  have hlong := acc.long
  exact .length (by omega) hcode hlen' (.inr fun h' => hdiff (BitVec.eq_of_toNat_eq (h'.trans heq.symm)))

/-- A changed byte from offset 3 on is covered, and changes the computed checksum, or is of the transmitted one. -/
theorem Accepted.sum_mutated (acc : Accepted m n h x) (hi : 3 ≤ i) (hin : i < n) (hb : Memory.get m i = some b)
    (hne : b' ≠ b) : FailsCheck (Memory.set m i b') n .checksumMismatch := by
  obtain ⟨hlen, heq⟩ := acc.len
  obtain ⟨covered, hcov, hsum⟩ := acc.sum
  have hlong := acc.long
  have hcode : Memory.get (Memory.set m i b') 0 = some rspReadAck :=
    (Memory.get_set_of_ne m b' (by omega)).trans acc.code.1
  have hlen' : Memory.get16 (Memory.set m i b') 1 = some h.len :=
    (Memory.get16_set_of_ne m b' (by omega) (by omega)).trans hlen
  by_cases hi' : i < n - 2
  · have hsent : Memory.get16 (Memory.set m i b') (n - 2) = some (crc16 covered) :=
      (Memory.get16_set_of_ne m b' (by omega) (by omega)).trans hsum
    have hold : covered[i]? = some b := (Memory.get_of_getAll hcov hi').symm.trans hb
    exact .sum hlong hcode hlen' heq hsent (Memory.getAll_set hcov hi' b') (crc16_set_ne hold hne)
  · obtain ⟨sent, hsent, hdiff⟩ := Memory.get16_set_ne hsum (by omega) hb hne
    have hcov' : Memory.getAll (Memory.set m i b') 0 (n - 2) = some covered :=
      (Memory.getAll_set_of_le m (by omega) b').trans hcov
    exact .sum hlong hcode hlen' heq hsent hcov' hdiff.symm

/-- One changed byte of an accepted frame fails the first check that reads it. -/
theorem Accepted.mutated (acc : Accepted m n h x) (hin : i < n) (hb : Memory.get m i = some b) (hne : b' ≠ b) :
    FailsCheck (Memory.set m i b') n (mutationKind i) := by
  unfold mutationKind
  split
  · next h0 =>
    subst h0
    obtain rfl : rspReadAck = b := Option.some.inj (acc.code.1.symm.trans hb)
    exact .code hin (Memory.get_set_same m 0 b') hne
  · split
    · exact acc.length_mutated (by omega) hb hne
    · exact acc.sum_mutated (by omega) hin hb hne

end Mutation

/-- Settles O24: a parse with STATUS OK has accepted its frame, and every offset's change fails the check that reads it. -/
theorem mutatedFrameRejected : Obligations.MutatedFrameRejected := by
  intro s t i b b' hexec hok hi hb hne
  have out : ParseOutcome s t := deliver_next hexec
  cases out with
  | accepted h x acc _ _ =>
    rw [exec_decParse_of_failsCheck (s := { s with ibuf := Memory.set s.ibuf i b' }) (acc.mutated hi hb hne), State.fail,
      failureCode_mutationKind]
  | rejected k _ eq =>
    subst eq
    exact absurd hok (failureCode_ne_ok k)

end Sys2Proof.Machine

/-! PROOFS of the family 60_exceptions: what a failing command has written, that its failure does not reach the next command, and
which commands never fail. -/

namespace Sys2Proof.Machine

/-! ### What a failure writes -/

/-- A command that ends without OK has entered an encoder failure or a decoder failure, and nothing more (60_exceptions.md R113). -/
theorem ExecOutcome.of_failure {i : Instr} {s t : State} (hi : isCommand i = true) (hfail : t.status ≠ 0x00)
    (h : ExecOutcome i s t) :
    (i ≠ .decParse ∧ ∃ k, t = s.fail .encoder k) ∨ (i = .decParse ∧ ∃ k, t = s.fail .decoder k) := by
  cases h with
  | crc _ c eq => subst eq; exact absurd rfl hfail
  | built _ op p _ eq => subst eq; exact absurd rfl hfail
  | notBuilt kind eq => exact .inl ⟨fun hd => by simp [hd, isEncoderCommand] at kind, _, eq⟩
  | parsed hd out =>
    cases out with
    | accepted h x _ _ eq => subst eq; exact absurd rfl hfail
    | rejected k _ eq => exact .inr ⟨hd, k, eq⟩
  | received kind => simp [hi] at kind

/-- Settles O48: a failing command's next state is one entry of `State.fail`, and an undefined word's is the port's. -/
theorem failureWritesNothingElse : Obligations.FailureWritesNothingElse := by
  refine ⟨fun i s t hi hexec hfail => ?_, fun s t w rest htodo hundef hstep => ?_⟩
  · rcases (exec_next hexec).of_failure hi hfail with ⟨hne, k, rfl⟩ | ⟨rfl, k, rfl⟩
    · rw [if_neg hne]; rfl
    · rfl
  · rw [step_cons htodo, hostStep_undefined_command hundef] at hstep
    cases hstep
    rfl

/-! ### A failure is not sticky -/

/-- A failure's entry writes none of a command's operands (60_exceptions.md R115). -/
theorem sameRowOperands_fail {i : Instr} (hi : isCommand i = true) (r : Raiser) (k : Failure) (s : State) :
    sameRowOperands i s (s.fail r k) := by
  have hm : sameMessage s (s.fail r k) := by simp [sameMessage]
  have he : sameEntries s (s.fail r k) := by simp [sameEntries]
  exact sameRowOperands_of_parts hi (s.fail_cfg r k) (s.fail_data r k) (s.fail_crc r k) (s.fail_op r k)
    (s.fail_pin r k) hm he

/-- Settles O50: what a command delivers depends on its operands alone, and a failure keeps them. -/
theorem failureNotSticky : Obligations.FailureNotSticky :=
  fun i s r k hi => resultsDependOnOperandsOnly i s (s.fail r k) (sameRowOperands_fail hi r k s)

/-! ### Commands that never fail -/

/-- A CRC command ends with STATUS OK (60_exceptions.md R120). -/
theorem ExecOutcome.status_of_crc {i : Instr} {s t : State} (hi : isCrcCommand i = true) (h : ExecOutcome i s t) :
    t.status = 0x00 := by
  obtain ⟨c, rfl⟩ := h.of_crc hi
  rfl

/-- The read request has eleven bytes, so ENC.READ ends with STATUS OK where OBUF holds as many (41_frame_encoder.md R91). -/
theorem status_of_encRead {s t : State} (hcap : 11 ≤ s.cfg.obufCap) (h : exec .encRead s = .next t) : t.status = 0x00 := by
  rw [(encReadBuildsRequest s _ rfl).1 hcap] at h
  cases h
  rfl

/-- Settles O49: the CRC commands' equations and their one end; ENC.READ by the room its frame needs. -/
theorem crcNeverFails : Obligations.CrcNeverFails :=
  ⟨fun s => ⟨_, exec_crcInit s, rfl⟩, fun s => ⟨_, exec_crcByte s, rfl⟩,
    fun _ _ hm => ⟨_, exec_crcSum_of_message hm, rfl⟩, fun _ _ _ hexec hi => (exec_next hexec).status_of_crc hi,
    fun _ _ hexec hfail => Nat.lt_of_not_le fun hcap => hfail (status_of_encRead hcap hexec)⟩

end Sys2Proof.Machine

/-! PROOFS of the family 70_reset_and_hazards: the reset event leaves the values of Table 10-3. -/

namespace Sys2Proof.Machine

/-! ### The reset event -/

/-- The host's reset is answered with the reset of the block (70_reset_and_hazards.md R130). -/
theorem step_reset {s : State} {rest : List HostAction} (htodo : s.todo = .reset :: rest) :
    step s = .next (s.withTodo rest).resetBlock := by
  rw [step_cons htodo]
  rfl

/-- Settles O2: the block after a reset has the fields of the reset state, whose values are those of Table 10-3 (O1). -/
theorem resetEventRestoresTable : Obligations.ResetEventRestoresTable := by
  intro s rest htodo
  refine ⟨_, step_reset htodo, ?_⟩
  obtain ⟨hcrc, hcmd, hstatus, hdata, hop, hpin, hilen, hecnt, holen, hparsed, hbuf, hent⟩ := resetLeavesTableValues
  exact ⟨hcrc, hcmd, hstatus, hdata, hop, hpin, hilen, hecnt, holen, hparsed, fun a =>
    ⟨(hbuf a).1, (hbuf a).2, hent a⟩⟩

end Sys2Proof.Machine

/-! PROOFS of the family other: the byte step in its bit-serial form, a received frame as a parse of the loaded frame, and what each
host action does or reads. -/

namespace Sys2Proof.Machine

/-! ### The nibble step as four bit-serial shifts -/

/-- A serial shift is linear: the polynomial goes in by the xor of the two top bits. -/
theorem serialShift_xor (a b : Word) : serialShift (a ^^^ b) = serialShift a ^^^ serialShift b := by
  have hpoly : (if a.msb ^^ b.msb then (0x1021 : Word) else 0) =
      (if a.msb then 0x1021 else 0) ^^^ (if b.msb then 0x1021 else 0) := by
    cases a.msb <;> cases b.msb <;> rfl
  rw [serialShift, BitVec.shiftLeft_xor_distrib, BitVec.msb_xor, hpoly, serialShift, serialShift]
  ac_rfl

theorem serialShifts_xor (k : Nat) (a b : Word) :
    Nat.repeat serialShift k (a ^^^ b) = Nat.repeat serialShift k a ^^^ Nat.repeat serialShift k b := by
  induction k with
  | zero => rfl
  | succ k ih => rw [Nat.repeat, ih, serialShift_xor, Nat.repeat, Nat.repeat]

/-- While no set bit reaches the top, serial shifts are plain shifts. -/
theorem serialShifts_of_lt {k : Nat} {x : Word} (h : x.toNat * 2 ^ k < 2 ^ 16) :
    Nat.repeat serialShift k x = x <<< k := by
  induction k with
  | zero => exact (BitVec.shiftLeft_zero x).symm
  | succ k ih =>
    rw [Nat.pow_succ, ← Nat.mul_assoc] at h
    have htop : (x <<< k).msb = false := by
      rw [BitVec.msb_eq_false_iff_two_mul_lt, BitVec.toNat_shiftLeft, Nat.shiftLeft_eq, Nat.mod_eq_of_lt] <;> omega
    rw [Nat.repeat, ih (by omega), serialShift, htop, BitVec.shiftLeft_add]
    exact BitVec.xor_zero

/-- Entry `i` of the table is the nibble `i` at the top of the register, shifted out (10_state.md R11). -/
theorem serialShifts_top (i : Nibble) : Nat.repeat serialShift 4 (i.setWidth 16 <<< 12) = tableAt i := by
  revert i
  decide

/-- A register is its low twelve bits and its top nibble. -/
theorem word_eq_low_xor_top (c : Word) : c = (c <<< 4) >>> 4 ^^^ (((c >>> 12).setWidth 4).setWidth 16 <<< 12) := by
  ext i hi
  rcases Nat.lt_or_ge i 12 with h | h
  · have hlow : 4 + i < 16 := by omega
    simp [h, hlow]
  · have hlow : ¬ 4 + i < 16 := by omega
    have htop : i - 12 < 4 := by omega
    simp [hlow, htop, Nat.not_lt.mpr h, Nat.add_sub_cancel' h, BitVec.getLsbD_eq_getElem hi]

/-- The nibble step is four serial shifts with the nibble put in at the top (40_crc.md R87). -/
theorem nib_eq_serialShifts (c : Word) (n : Nibble) : nib c n = Nat.repeat serialShift 4 (c ^^^ (n.setWidth 16 <<< 12)) := by
  have hsplit : c ^^^ (n.setWidth 16 <<< 12) = (c <<< 4) >>> 4 ^^^ ((nibIndex c n).setWidth 16 <<< 12) := by
    rw [nibIndex, BitVec.setWidth_xor, BitVec.shiftLeft_xor_distrib, ← BitVec.xor_assoc, ← word_eq_low_xor_top]
  have hlow : ((c <<< 4) >>> 4).toNat * 2 ^ 4 < 2 ^ 16 := by
    rw [BitVec.toNat_ushiftRight, Nat.shiftRight_eq_div_pow]
    omega
  have hback : (c <<< 4) >>> 4 <<< 4 = c <<< 4 := by
    apply BitVec.eq_of_toNat_eq
    simp only [BitVec.toNat_ushiftRight, BitVec.toNat_shiftLeft, Nat.shiftRight_eq_div_pow, Nat.shiftLeft_eq]
    omega
  rw [hsplit, serialShifts_xor, serialShifts_of_lt hlow, hback, serialShifts_top, nib]

theorem byte_eq_nibbles (b : Byte) :
    b.setWidth 16 <<< 8 = ((hiNibble b).setWidth 16 <<< 12) ^^^ ((loNibble b).setWidth 16 <<< 8 : Word) := by
  revert b
  decide

/-- Settles O8: two runs of four shifts; the low nibble, put in with the byte, has moved to the top when the second begins. -/
theorem byteStepEqualsBitSerial : Obligations.ByteStepEqualsBitSerial := by
  intro c b
  have hlo : ((loNibble b).setWidth 16 <<< 8 : Word).toNat * 2 ^ 4 < 2 ^ 16 := by
    have := (loNibble b).isLt
    simp only [BitVec.toNat_shiftLeft, BitVec.toNat_setWidth, Nat.shiftLeft_eq]
    omega
  calc crcByteStep c b
      = Nat.repeat serialShift 4 (Nat.repeat serialShift 4 (c ^^^ ((hiNibble b).setWidth 16 <<< 12)) ^^^
          ((loNibble b).setWidth 16 <<< 12)) := by rw [crcByteStep, nib_eq_serialShifts, nib_eq_serialShifts]
    _ = Nat.repeat serialShift 4 (Nat.repeat serialShift 4 (c ^^^ (b.setWidth 16 <<< 8))) := by
        rw [byte_eq_nibbles, ← BitVec.xor_assoc, serialShifts_xor 4 _ ((loNibble b).setWidth 16 <<< 8),
          serialShifts_of_lt hlo, ← BitVec.shiftLeft_add]
    _ = serialByte c b := rfl

/-- Settles O9: a byte step tells its bytes apart and its register values apart, so equal checksums mean equal bytes. -/
theorem checksumDetectsOneByte : Obligations.ChecksumDetectsOneByte := fun _ _ _ _ hne h =>
  hne (crc16_one_byte_injective h)

/-- Settles O3: the mask keeps all sixteen bits; the table and the corner values are computed. -/
theorem nibbleStepFormula : Obligations.NibbleStepFormula := by
  refine ⟨fun c n => ?_, by decide, by decide, by decide, by decide, by decide, by decide⟩
  rw [show (0xFFFF : Word) = BitVec.allOnes 16 from rfl, BitVec.and_allOnes]
  rfl

/-! ### A received frame is a parse of the loaded frame -/

theorem parseReceived_of_fits {f : List Byte} {s : State} (h : f.length ≤ s.cfg.ibufCap) :
    parseReceived f s = exec .decParse (s.loadFrame f) := if_pos h

theorem parseReceived_tooLong {f : List Byte} {s : State} (h : s.cfg.ibufCap < f.length) :
    parseReceived f s = .fault (.noSuchAddress .ibuf) := if_neg (Nat.not_le.mpr h)

theorem exec_wire {i : Instr} (hi : isCommand i = false) (s : State) : exec i s = parseReceived (wireBytes i) s := by
  cases i with
  | readReq | writeReq | readRsp => rfl
  | crcInit | crcByte | crcSum | encFrame | encRead | encWrite | decParse => simp [isCommand] at hi

theorem hostStep_wire_of_decode {f : List Byte} {i : Instr} (h : decode (.wire f) = .ok i) (s : State) :
    hostStep (.issue (.wire f)) s = exec i s := by
  simp only [hostStep, issue, h]

/-- The command port gives every received frame to the decoder, whether or not it decodes (30_encoding.md R63, log 6). -/
theorem hostStep_wire (f : List Byte) (s : State) : hostStep (.issue (.wire f)) s = parseReceived f s := by
  cases hdec : decode (.wire f) with
  | error e => simp only [hostStep, issue, hdec]
  | ok i =>
    obtain ⟨henc, -⟩ := encode_of_decodeFrame hdec
    have hbytes : wireBytes i = f := by rw [wireBytes, henc]
    rw [hostStep_wire_of_decode hdec, exec_wire (decode_wire_kind hdec), hbytes]

/-- The frame loaded for a parse is read back whole. -/
theorem getAll_loadFrame (f : List Byte) (s : State) :
    Memory.getAll (s.loadFrame f).ibuf 0 (s.loadFrame f).ilen = some f := Memory.getAll_setAll s.ibuf 0 f

theorem exec_wire_of_fits {i : Instr} {f : List Byte} {s : State} (hi : isCommand i = false) (hf : wireBytes i = f)
    (hfits : f.length ≤ s.cfg.ibufCap) : exec i s = exec .decParse (s.loadFrame f) := by
  rw [exec_wire hi, hf, parseReceived_of_fits hfits]

/-- A wire frame whose byte 0 is not that of a read response is rejected by it (30_encoding.md R63). -/
theorem exec_wire_badCode {i : Instr} {f : List Byte} {s : State} (hi : isCommand i = false) (hf : wireBytes i = f)
    (hfits : f.length ≤ s.cfg.ibufCap) (hcode : f[0]? ≠ some 0x94) :
    exec i s = .next ((s.loadFrame f).fail .decoder .invalidResponseCode) := by
  obtain ⟨hreject, -⟩ := decParseChecksInOrder _ f (getAll_loadFrame f s)
  rw [exec_wire_of_fits hi hf hfits, hreject hcode]
  rfl

/-- Settles O26: byte 0 is 0x93. -/
theorem readRequestFrameRejected : Obligations.ReadRequestFrameRejected := by
  intro s len pin payload sum f hf hfits
  have hbytes : wireBytes (.readReq len pin payload sum) = f := hf.symm
  exact exec_wire_badCode rfl hbytes hfits (by simp [hf])

/-- Settles O27: byte 0 is 0xA3. -/
theorem writeRequestFrameRejected : Obligations.WriteRequestFrameRejected := by
  intro s len pin entries sum f hf hfits
  have hbytes : wireBytes (.writeReq len pin entries sum) = f := by
    simp [wireBytes, encode_writeReq, serPayload_eq_flatMap, hf, opcWrite]
  exact exec_wire_badCode rfl hbytes hfits (by simp [hf])

/-! ### Read responses, field by field -/

section ReadResponse
variable (len start count : Word) (dcb : List Byte) (sum : Word)

/-- The bytes of a read response before its checksum field (30_encoding.md Table 30-4). -/
def responseBody : List Byte := [0x94] ++ le16 len ++ le16 start ++ le16 count ++ dcb

theorem wireBytes_readRsp :
    wireBytes (.readRsp len start count dcb sum) = responseBody len start count dcb ++ le16 sum := rfl

@[simp] theorem responseBody_length : (responseBody len start count dcb).length = dcb.length + 7 := by
  simp [responseBody]; omega

theorem rd16_response_len (x : List Byte) : rd16 (responseBody len start count dcb ++ x) 1 = some len :=
  congrArg some (join16_lo8_hi8 len)

theorem rd16_response_start (x : List Byte) : rd16 (responseBody len start count dcb ++ x) 3 = some start :=
  congrArg some (join16_lo8_hi8 start)

theorem rd16_response_count (x : List Byte) : rd16 (responseBody len start count dcb ++ x) 5 = some count :=
  congrArg some (join16_lo8_hi8 count)

/-- The decoder's slice is the DCB slice of the layout. -/
theorem response_slice : ((responseBody len start count dcb ++ le16 sum).drop 7).take dcb.length = dcb :=
  List.take_left

end ReadResponse

/-! A frame's checksum field and the bytes before it (30_encoding.md R58). -/

theorem rd16_trailer (x : List Byte) (v : Word) : rd16 (x ++ le16 v) ((x ++ le16 v).length - 2) = some v := by
  rw [List.length_append, le16_length, Nat.add_sub_cancel, rd16_append_le16]

theorem take_trailer (x : List Byte) (v : Word) : (x ++ le16 v).take ((x ++ le16 v).length - 2) = x := by
  rw [List.length_append, le16_length, Nat.add_sub_cancel, List.take_left]

/-- Settles O28: the fields stand where the decoder reads them, and the slice fits OBUF by the parameters' constraint. -/
theorem readResponseFrameAccepted : Obligations.ReadResponseFrameAccepted := by
  intro s len start count dcb sum g f hg hf hok hfits hlen hsum
  obtain rfl : g = responseBody len start count dcb := hg
  subst hf
  have hsize : (responseBody len start count dcb ++ le16 sum).length = dcb.length + 9 := by simp
  obtain ⟨-, -, -, haccept⟩ := decParseChecksInOrder _ _ (getAll_loadFrame (responseBody len start count dcb ++ le16 sum) s)
  have hparse := haccept len start count hok hfits rfl (by rw [State.loadFrame_ilen]; omega)
    (rd16_response_len len start count dcb _) hlen
    (by rw [State.loadFrame_ilen, rd16_trailer, take_trailer, hsum])
    (rd16_response_start len start count dcb _) (rd16_response_count len start count dcb _)
  rw [exec_wire_of_fits rfl (wireBytes_readRsp len start count dcb sum) hfits, hparse, State.loadFrame_ilen, hsize,
    Nat.add_sub_cancel, response_slice]
  rfl

/-- Settles O29: the length check comes before the checksum check, and each reads the field it names. -/
theorem readResponseFrameRejected : Obligations.ReadResponseFrameRejected := by
  intro s len start count dcb sum g f hg hf hfits
  obtain rfl : g = responseBody len start count dcb := hg
  subst hf
  have hlength := rd16_response_len len start count dcb (le16 sum)
  obtain ⟨-, hshort, hsum, -⟩ :=
    decParseChecksInOrder _ _ (getAll_loadFrame (responseBody len start count dcb ++ le16 sum) s)
  rw [exec_wire_of_fits rfl (wireBytes_readRsp len start count dcb sum) hfits]
  refine ⟨fun hne => hshort rfl (.inr fun len' hlen' => ?_), fun heq hne => hsum len sum rfl ?_ hlength heq
    (rd16_trailer _ sum) ?_⟩
  · rwa [← Option.some.inj (hlength.symm.trans hlen')]
  · rw [State.loadFrame_ilen, List.length_append, responseBody_length, le16_length]
    omega
  · rw [State.loadFrame_ilen, take_trailer]
    exact hne.symm

/-! ### Received frames as host actions -/

/-- Settles O30: the frame's own instruction, where it decodes to one, is the same parse. -/
theorem receivedFrameRunsDecParse : Obligations.ReceivedFrameRunsDecParse := by
  intro s f rest htodo
  rw [step_cons htodo, hostStep_wire]
  exact ⟨fun hfits => parseReceived_of_fits hfits, fun hlong => parseReceived_tooLong hlong⟩

theorem core_run_one (s : State) : Host.Core.run Sys2Proof.core 1 s = step s := by
  have hstep : Sys2Proof.core.step s = step s := rfl
  simp only [Host.Core.run, hstep]
  cases step s <;> rfl

/-- Settles O42: the host's writes leave the frame loaded, and the command word runs DEC.PARSE on it. -/
theorem lineDecParseIsReceivedFrame : Obligations.LineDecParseIsReceivedFrame := by
  intro s f rest hfits htodo
  have hs : s = s.withTodo (loadActions f ++ ([.issue (.command 0x07)] ++ rest)) := by
    rw [← List.append_assoc]
    exact htodo ▸ rfl
  have hlen : f.length + 2 = (loadActions f).length + 1 := by simp [loadActions]
  have hrun : Host.Core.run Sys2Proof.core (f.length + 2) s =
      step ((s.putMessage f).withTodo (.issue (.command 0x07) :: rest)) := by
    rw [hs, hlen, performs_loadActions f hfits, core_run_one]
    rfl
  have hfits' : f.length ≤ (s.withTodo rest).cfg.ibufCap := hfits
  have hwire : step { s with todo := .issue (.wire f) :: rest } = exec .decParse ((s.withTodo rest).loadFrame f) :=
    (hostStep_wire f (s.withTodo rest)).trans (parseReceived_of_fits hfits')
  rw [hwire]
  exact hrun

/-! ### Received frames complete -/

theorem exec_decParse_total {s : State} {f : List Byte} (hf : Memory.getAll s.ibuf 0 s.ilen = some f)
    (hok : s.cfg.ok = true) (hcap : s.ilen ≤ s.cfg.ibufCap) : ∃ t, exec .decParse s = .next t := by
  have hlen : f.length = s.ilen := Memory.getAll_length hf
  have hword {i : Nat} (hi : i + 2 ≤ s.ilen) : ∃ w, rd16 f i = some w := ⟨_, rd16_of_lt (by omega)⟩
  obtain ⟨hcode, hlength, hsum, haccept⟩ := decParseChecksInOrder s f hf
  by_cases h0 : f[0]? = some 0x94
  case neg => exact ⟨_, hcode h0⟩
  by_cases hn : s.ilen < 9
  case pos => exact ⟨_, hlength h0 (.inl hn)⟩
  obtain ⟨len, hl⟩ := hword (i := 1) (by omega)
  by_cases heq : len.toNat = s.ilen
  case neg => exact ⟨_, hlength h0 (.inr fun len' hl' => Option.some.inj (hl.symm.trans hl') ▸ heq)⟩
  obtain ⟨sent, hs⟩ := hword (i := s.ilen - 2) (by omega)
  by_cases hcrc : crc16 (f.take (s.ilen - 2)) = sent
  case neg => exact ⟨_, hsum len sent h0 (by omega) hl heq hs hcrc⟩
  obtain ⟨start, hstart⟩ := hword (i := 3) (by omega)
  obtain ⟨count, hcount⟩ := hword (i := 5) (by omega)
  exact ⟨_, haccept len start count hok hcap h0 (by omega) hl heq (hcrc ▸ hs) hstart hcount⟩

/-- Settles O55: the loaded frame is written, so its parse ends; a parse keeps all that was loaded. -/
theorem receivedFrameCompletes : Obligations.ReceivedFrameCompletes := by
  intro i s hi hok hfits
  have hread := getAll_loadFrame (wireBytes i) s
  obtain ⟨t, hexec⟩ := exec_decParse_total hread hok hfits
  have out : ParseOutcome (s.loadFrame (wireBytes i)) t := deliver_next hexec
  obtain ⟨⟨⟨hcfg, hdata, hop, hpin, hilen, hecnt, hibuf, hpos, hentLen, hval⟩, hcmd, -, -⟩, hcrc⟩ := out.keeps
  refine ⟨t, (exec_wire_of_fits hi rfl hfits).trans hexec, hcmd, hilen, ?_, fun a ha => ?_, fun a => out.get_obuf_beyond,
    hcrc, hdata, hop, hpin, hecnt, hpos, hentLen, hval, hcfg⟩
  · rw [hibuf, hilen, hread]
  · rw [hilen, State.loadFrame_ilen] at ha
    rw [hibuf, State.loadFrame_ibuf, Memory.get_setAll, if_neg (by omega)]

/-! ### A write request's refusals -/

/-- Settles O16: the tests of `buildWrite` in the order it makes them. -/
theorem writeRefusalsInOrder : Obligations.WriteRefusalsInOrder := by
  refine fun c pin es => ⟨fun hlong => if_pos hlong, fun hlen ⟨e, he, hne⟩ => ?_, fun hlen hok hbig => ?_⟩
  · have hbad : ¬ es.all entryOk = true := fun hall => hne (beq_iff_eq.mp (List.all_eq_true.mp hall e he))
    rw [buildWrite, if_neg (Nat.not_lt.mpr hlen), if_neg hbad]
  · have hall : es.all entryOk = true := List.all_eq_true.mpr fun e he => beq_iff_eq.mpr (hok e he)
    have hfits : frameFits c (serLength es) = false := by
      rw [frameFits_eq_false_iff, serLength]
      omega
    rw [buildWrite, if_neg (Nat.not_lt.mpr hlen), if_pos hall, hfits]
    rfl

/-! ### Decoding and steps -/

/-- Settles O34: each frame is evaluated through the decoder of its layout. -/
theorem knownFramesDecode : Obligations.KnownFramesDecode :=
  ⟨by decide, by decide, by decide⟩

/-- Settles O36: a step takes the host's action to the command port, which runs what the image decodes to. -/
theorem stepRunsDecodedInstruction : Obligations.StepRunsDecodedInstruction := by
  refine fun s i rest => ⟨fun w htodo hdec => ?_, fun f htodo hdec => ?_⟩
  · rw [step_cons htodo, hostStep_command hdec]
    rfl
  · rw [step_cons htodo, hostStep_wire_of_decode hdec]
    rfl

/-- Settles O45: an empty list is the idle case of the step. -/
theorem finalStateStays : Obligations.FinalStateStays := fun _ => step_idle

/-! ### Host writes -/

/-- Settles O38: one equation per register; ILEN is tested against IBUF_CAP. -/
theorem hostRegisterWrites : Obligations.HostRegisterWrites := by
  refine fun s rest => ⟨fun b htodo => step_cons htodo, fun b htodo => step_cons htodo, fun w htodo => step_cons htodo,
    fun b htodo => step_cons htodo, fun n htodo hn => ?_, fun n htodo hn => ?_⟩
  · exact (step_cons htodo).trans (hostStep_writeIlen hn)
  · exact (step_cons htodo).trans (if_neg (Nat.not_le.mpr hn))

/-- A write outside its address space stops the machine (log 11). -/
theorem writeWithin_outside {b : Buffer} {inside : Bool} (h : inside = false) (t : State) :
    writeWithin b inside t = .fault (.noSuchAddress b) := by rw [h]; rfl

/-- Settles O39: each buffer's bound decides, and one element is written. -/
theorem hostBufferWrites : Obligations.HostBufferWrites := by
  refine fun s rest => ⟨fun a b htodo => ⟨fun ha => ?_, fun ha => ?_⟩, fun j w htodo => ⟨fun hj => ?_, fun hj => ?_⟩,
    fun j b htodo => ⟨fun hj => ?_, fun hj => ?_⟩, fun j i b htodo => ⟨fun hj hi => ?_, fun hout => ?_⟩⟩
  · exact ⟨_, (step_cons htodo).trans (hostStep_writeIbuf (s := s.withTodo rest) ha b), fun x => Memory.get_set _ _ x _⟩
  · exact (step_cons htodo).trans (writeWithin_outside (decide_eq_false (Nat.not_lt.mpr ha)) _)
  · exact ⟨_, (step_cons htodo).trans (hostStep_writeEntPos (by omega) w _), fun x => Memory.get_set _ _ x _⟩
  · exact (step_cons htodo).trans (writeWithin_outside (decide_eq_false (Nat.not_lt.mpr hj)) _)
  · exact ⟨_, (step_cons htodo).trans (hostStep_writeEntLen (by omega) b _), fun x => Memory.get_set _ _ x _⟩
  · exact (step_cons htodo).trans (writeWithin_outside (decide_eq_false (Nat.not_lt.mpr hj)) _)
  · exact ⟨_, (step_cons htodo).trans (hostStep_writeEntVal (by omega) (by omega) b _), fun x => Memory.get_set _ _ x _⟩
  · refine (step_cons htodo).trans (writeWithin_outside ?_ _)
    rw [Bool.and_eq_false_iff, decide_eq_false_iff_not, decide_eq_false_iff_not]
    exact hout.imp Nat.not_lt.mpr Nat.not_lt.mpr

/-! ### Host reads -/

theorem readParsed_of_some {s : State} {h : RespHeader} (hs : s.parsed = some h) (r : HostReg) (field : RespHeader → Nat) :
    readParsed s r field = .ok (field h) := by simp only [readParsed, hs]

/-- A read of OBUF that ends returns a valid byte (10_state.md R16). -/
theorem readOutput_eq_ok_iff {s : State} {a v : Nat} :
    readOutput s a = .ok v ↔ a < s.olen ∧ ∃ b, Memory.get s.obuf a = some b ∧ v = b.toNat := by
  unfold readOutput
  split
  · next ha => cases Memory.get s.obuf a <;> simp [ha, eq_comm]
  · next ha => simp [ha]

/-- Settles O43: the read's number is the one answer `readRegister` or `readOutput` gives, and `finishRead` records it. -/
theorem hostReadsChangeNothing : Obligations.HostReadsChangeNothing := by
  intro s t act rest htodo hread hstep
  rw [step_cons htodo] at hstep
  rcases hread with ⟨r, rfl⟩ | ⟨a, rfl⟩
  · obtain ⟨v, hv, ht⟩ := finishRead_next hstep
    have hval {r' : HostReg} {n : Nat} (hr : HostAction.readReg r = .readReg r')
        (hn : readRegister (s.withTodo rest) r' = .ok n) : v = n := by
      cases hr
      exact Except.ok.inj (hv.symm.trans hn)
    have hparsed {h : RespHeader} (hs : s.parsed = some h) {r' : HostReg} (field : RespHeader → Nat) :
        readParsed (s.withTodo rest) r' field = .ok (field h) := readParsed_of_some hs r' field
    exact ⟨v, ht, fun hr => hval hr rfl, fun hr => hval hr rfl, fun hr => hval hr rfl, fun hr => hval hr rfl,
      fun hr => hval hr rfl, fun hr => hval hr rfl, fun hr => hval hr rfl, fun hr => hval hr rfl,
      fun h hs => ⟨fun hr => hval hr (hparsed hs _), fun hr => hval hr (hparsed hs _), fun hr => hval hr (hparsed hs _),
        fun hr => hval hr (hparsed hs _)⟩, nofun⟩
  · obtain ⟨v, hv, ht⟩ := finishRead_next hstep
    refine ⟨v, ht, nofun, nofun, nofun, nofun, nofun, nofun, nofun, nofun, fun _ _ => ⟨nofun, nofun, nofun, nofun⟩,
      fun a' ha => ?_⟩
    cases ha
    exact readOutput_eq_ok_iff.mp hv

/-- A register that is neither CMD nor an R_ register has a number in every state, and an R_ register when they hold values. -/
theorem readRegister_ok {s : State} {r : HostReg} (hcmd : r ≠ .cmd)
    (h : s.parsed.isSome = true ∨ r ≠ .rCode ∧ r ≠ .rLen ∧ r ≠ .rStart ∧ r ≠ .rCount) :
    ∃ v, readRegister s r = .ok v := by
  cases r with
  | cmd => contradiction
  | status | data | op | pin | ilen | ecnt | crc | olen => exact ⟨_, rfl⟩
  | rCode | rLen | rStart | rCount =>
    obtain ⟨hd, hs⟩ := Option.isSome_iff_exists.mp (h.resolve_right (by simp))
    exact ⟨_, readParsed_of_some hs _ _⟩

/-- Under the invariant every byte of OBUF below OLEN holds a value. -/
theorem State.Inv.readOutput_ok {s : State} (h : s.Inv) {a : Nat} (ha : a < s.olen) : ∃ v, readOutput s a = .ok v := by
  obtain ⟨x, hx⟩ := Option.isSome_iff_exists.mp h.outputHeld
  have hlen := Memory.getAll_length hx
  have hget : x[a]? = some x[a] := List.getElem?_eq_getElem (by omega)
  exact ⟨_, readOutput_eq_ok_iff.mpr ⟨ha, _, (Memory.get_of_getAll hx ha).trans hget, rfl⟩⟩

/-- A read with a number goes on. -/
theorem hostRead_next {v : Except Fault Nat} (s : State) (h : ∃ n, v = .ok n) : ∃ t, finishRead v s = .next t := by
  obtain ⟨n, rfl⟩ := h
  exact ⟨s.observe n, rfl⟩

/-- Settles O44: a read goes on exactly with a number. -/
theorem hostReadsWithoutNumber : Obligations.HostReadsWithoutNumber := by
  intro s rest
  refine ⟨fun a htodo ha => ?_, fun htodo => ?_, fun r htodo hcmd h1 h2 h3 h4 => ?_, fun r htodo hcmd hs => ?_,
    fun a hinv htodo ha => ?_⟩ <;> rw [step_cons htodo]
  · have hnone : readOutput (s.withTodo rest) a = .error (.noValidByte a) := if_neg (Nat.not_lt.mpr ha)
    rw [hostStep, hnone]
    rfl
  · rfl
  · exact hostRead_next _ (readRegister_ok hcmd (.inr ⟨h1, h2, h3, h4⟩))
  · exact hostRead_next _ (readRegister_ok hcmd (.inl hs))
  · exact hostRead_next _ ((hinv.withTodo rest).readOutput_ok ha)

/-! ### The invariant at reset -/

/-- Settles O52: the buffers are empty and the default parameters meet their constraint (20_memory.md R33). -/
theorem invariantAtReset : Obligations.InvariantAtReset where
  cfg := by decide
  ibufWf := rfl
  obufWf := rfl
  entPosWf := rfl
  entLenWf := rfl
  entValWf := rfl
  ibufIn := rfl
  obufIn := rfl
  entPosIn := rfl
  entLenIn := rfl
  entValIn := rfl
  ilenIn := Nat.zero_le _
  olenIn := Nat.zero_le _
  outputHeld := rfl
  status := rfl
  parsed _ heq := nomatch heq

end Sys2Proof.Machine
